-- ==== Sys2Proof/Word.lean ====
section
/-! DEFINITION. The word types of the block (spec 00_scope.md R6, R7): bytes, 16-bit words, 12-bit addresses of an
instruction, register numbers and keypad keys. -/

namespace Sys2Proof

/-- An 8-bit value: a general register, a timer, a byte of memory (R6: V_WIDTH, TIMER_WIDTH). -/
abbrev Byte := BitVec 8

/-- A 16-bit value: an instruction word, pc, I, a return address (R6: PC_WIDTH, I_WIDTH, STACK_WIDTH). -/
abbrev Word := BitVec 16

/-- The 12-bit address field of an instruction (30_encoding.md R81). -/
abbrev Addr12 := BitVec 12

/-- The number of a general register, V0 .. VF (10_state.md R21). -/
abbrev Reg := Fin 16

/-- A keypad key, 0x0 .. 0xF (10_state.md R29). -/
abbrev Key := Fin 16

end Sys2Proof
end

