-- ==== Sys2Proof/Syntax.lean ====
section
/-! DEFINITION. The instruction set: one constructor per row of spec/opcode_table.json (30_encoding.md R85).
An operand has the type of its encoding field (R81): `x` and `y` a register number, `n` a 4-bit count, `kk` a byte,
`addr` 12 bits. -/

namespace Sys2Proof

inductive Instr where
  /-- `0000` NOP (40_cycle.md R110). -/
  | nop
  /-- `00E0` CLS (43_display.md R201). -/
  | cls
  /-- `00EE` RET (42_control_flow.md R172). -/
  | ret
  /-- `1nnn` JP addr (R179). -/
  | jp (addr : Addr12)
  /-- `2nnn` CALL addr (R171). -/
  | call (addr : Addr12)
  /-- `3xkk` SE Vx, kk (R173). -/
  | seImm (x : Reg) (kk : Byte)
  /-- `4xkk` SNE Vx, kk (R174). -/
  | sneImm (x : Reg) (kk : Byte)
  /-- `5xy0` SE Vx, Vy (R175). -/
  | seReg (x y : Reg)
  /-- `6xkk` LD Vx, kk (41_arith_logic.md R135). -/
  | ldImm (x : Reg) (kk : Byte)
  /-- `7xkk` ADD Vx, kk (R136). -/
  | addImm (x : Reg) (kk : Byte)
  /-- `8xy0` LD Vx, Vy (R137). -/
  | ldReg (x y : Reg)
  /-- `8xy1` OR Vx, Vy (R138). -/
  | orReg (x y : Reg)
  /-- `8xy2` AND Vx, Vy (R139). -/
  | andReg (x y : Reg)
  /-- `8xy3` XOR Vx, Vy (R140). -/
  | xorReg (x y : Reg)
  /-- `8xy4` ADD Vx, Vy (R141). -/
  | addReg (x y : Reg)
  /-- `8xy5` SUB Vx, Vy (R142). -/
  | subReg (x y : Reg)
  /-- `8xy6` SHR Vx (R143); `y` is part of the word and is not read. -/
  | shr (x y : Reg)
  /-- `8xy7` SUBN Vx, Vy (R144). -/
  | subnReg (x y : Reg)
  /-- `8xyE` SHL Vx (R145); `y` is part of the word and is not read. -/
  | shl (x y : Reg)
  /-- `9xy0` SNE Vx, Vy (42_control_flow.md R176). -/
  | sneReg (x y : Reg)
  /-- `Annn` LD I, addr (45_memory_index.md R240). -/
  | ldI (addr : Addr12)
  /-- `Bnnn` JP V0, addr (42_control_flow.md R180). -/
  | jpV0 (addr : Addr12)
  /-- `Cxkk` RND Vx, kk (41_arith_logic.md R146). -/
  | rnd (x : Reg) (kk : Byte)
  /-- `Dxyn` DRW Vx, Vy, n (43_display.md R202). -/
  | drw (x y : Reg) (n : Fin 16)
  /-- `Ex9E` SKP Vx (42_control_flow.md R177). -/
  | skp (x : Reg)
  /-- `ExA1` SKNP Vx (R178). -/
  | sknp (x : Reg)
  /-- `Fx07` LD Vx, DT (44_timer_keypad.md R220). -/
  | ldVxDt (x : Reg)
  /-- `Fx0A` LD Vx, K (R223). -/
  | ldVxK (x : Reg)
  /-- `Fx15` LD DT, Vx (R221). -/
  | ldDtVx (x : Reg)
  /-- `Fx18` LD ST, Vx (R222). -/
  | ldStVx (x : Reg)
  /-- `Fx1E` ADD I, Vx (45_memory_index.md R241). -/
  | addI (x : Reg)
  /-- `Fx29` LD F, Vx (R242). -/
  | ldF (x : Reg)
  /-- `Fx33` LD B, Vx (R243). -/
  | ldB (x : Reg)
  /-- `Fx55` LD [I], Vx (R244). -/
  | storeRegs (x : Reg)
  /-- `Fx65` LD Vx, [I] (R245). -/
  | loadRegs (x : Reg)
  deriving DecidableEq, Repr

end Sys2Proof
end

