-- ==== Sys2Proof/WellFormed.lean ====
section
/-! DEFINITION. Which 16-bit words are instructions, written from the table of INVALID words of 30_encoding.md R87 (and R86),
not from the decoder: the two are independent readings of the spec, and an obligation says that they agree.

The operands of `Instr` have the types of their encoding fields, and every value of every field is an operand of every
instruction that has the field (R83, R89). So every term of `Instr` is well formed and no predicate on `Instr` is needed:
the checks are on words, one per family that has invalid words. -/

namespace Sys2Proof

/-- Family 0x0: the three instruction words of R86. -/
def WellFormed.familyZero (w : Word) : Bool :=
  w.toNat == 0x0000 || w.toNat == 0x00E0 || w.toNat == 0x00EE

/-- Families 0x5 and 0x9: `n != 0` is invalid (R87). -/
def WellFormed.familyRegisterSkip (w : Word) : Bool :=
  w.toNat % 16 == 0

/-- Family 0x8: `n` in 8, 9, A, B, C, D, F is invalid (R87). -/
def WellFormed.familyEight (w : Word) : Bool :=
  !([0x8, 0x9, 0xA, 0xB, 0xC, 0xD, 0xF].contains (w.toNat % 16))

/-- Family 0xE: `kk` not in 9E, A1 is invalid (R87). -/
def WellFormed.familyKey (w : Word) : Bool :=
  [0x9E, 0xA1].contains (w.toNat % 256)

/-- Family 0xF: `kk` outside the nine listed selectors is invalid (R87). -/
def WellFormed.familyMisc (w : Word) : Bool :=
  [0x07, 0x0A, 0x15, 0x18, 0x1E, 0x29, 0x33, 0x55, 0x65].contains (w.toNat % 256)

/-- The word is an instruction: it is not in R87's table of invalid words. -/
def WellFormed.word (w : Word) : Bool :=
  if w.toNat / 4096 = 0x0 then WellFormed.familyZero w
  else if w.toNat / 4096 = 0x5 then WellFormed.familyRegisterSkip w
  else if w.toNat / 4096 = 0x8 then WellFormed.familyEight w
  else if w.toNat / 4096 = 0x9 then WellFormed.familyRegisterSkip w
  else if w.toNat / 4096 = 0xE then WellFormed.familyKey w
  else if w.toNat / 4096 = 0xF then WellFormed.familyMisc w
  else true

end Sys2Proof
end

