-- ==== Sys2Proof/Decode.lean ====
section
/-! DEFINITION. The decoder of 30_encoding.md R84, total on every word and every byte sequence, and the encoder written from
the same opcode map (R82, R85). The machine meets instruction words only through this file. -/

namespace Sys2Proof

/-- Why bytes hold no instruction: fewer than two of them, or a word that R84 calls INVALID. -/
inductive DecodeError where
  | truncated
  | invalidOpcode (w : Word)
  deriving DecidableEq, Repr

/-! ### Fields (R81) -/

/-- `w[15:12]`, the major opcode. -/
def fieldMajor (w : Word) : Fin 16 := (w.extractLsb' 12 4).toFin

/-- `w[11:8]`. -/
def fieldX (w : Word) : Reg := (w.extractLsb' 8 4).toFin

/-- `w[7:4]`. -/
def fieldY (w : Word) : Reg := (w.extractLsb' 4 4).toFin

/-- `w[3:0]`. -/
def fieldN (w : Word) : Fin 16 := (w.extractLsb' 0 4).toFin

/-- `w[7:0]`. -/
def fieldKk (w : Word) : Byte := w.extractLsb' 0 8

/-- `w[11:0]`. -/
def fieldAddr (w : Word) : Addr12 := w.extractLsb' 0 12

/-! ### Decoding (R84) -/

/-- Family 0x0: exactly three words are instructions (R86). -/
def decodeFamilyZero (w : Word) : Option Instr :=
  if w = 0x0000 then some .nop
  else if w = 0x00E0 then some .cls
  else if w = 0x00EE then some .ret
  else none

/-- Family 0x8: `n` selects the operation. -/
def decodeFamilyEight (w : Word) : Option Instr :=
  match (fieldN w).val with
  | 0x0 => some (.ldReg (fieldX w) (fieldY w))
  | 0x1 => some (.orReg (fieldX w) (fieldY w))
  | 0x2 => some (.andReg (fieldX w) (fieldY w))
  | 0x3 => some (.xorReg (fieldX w) (fieldY w))
  | 0x4 => some (.addReg (fieldX w) (fieldY w))
  | 0x5 => some (.subReg (fieldX w) (fieldY w))
  | 0x6 => some (.shr (fieldX w) (fieldY w))
  | 0x7 => some (.subnReg (fieldX w) (fieldY w))
  | 0xE => some (.shl (fieldX w) (fieldY w))
  | _ => none

/-- Family 0xE: `kk` selects the operation. -/
def decodeFamilyKey (w : Word) : Option Instr :=
  match (fieldKk w).toNat with
  | 0x9E => some (.skp (fieldX w))
  | 0xA1 => some (.sknp (fieldX w))
  | _ => none

/-- Family 0xF: `kk` selects the operation. -/
def decodeFamilyMisc (w : Word) : Option Instr :=
  match (fieldKk w).toNat with
  | 0x07 => some (.ldVxDt (fieldX w))
  | 0x0A => some (.ldVxK (fieldX w))
  | 0x15 => some (.ldDtVx (fieldX w))
  | 0x18 => some (.ldStVx (fieldX w))
  | 0x1E => some (.addI (fieldX w))
  | 0x29 => some (.ldF (fieldX w))
  | 0x33 => some (.ldB (fieldX w))
  | 0x55 => some (.storeRegs (fieldX w))
  | 0x65 => some (.loadRegs (fieldX w))
  | _ => none

/-- `Decode(w)` of R84; `none` is INVALID. -/
def decodeWord (w : Word) : Option Instr :=
  match (fieldMajor w).val with
  | 0x0 => decodeFamilyZero w
  | 0x1 => some (.jp (fieldAddr w))
  | 0x2 => some (.call (fieldAddr w))
  | 0x3 => some (.seImm (fieldX w) (fieldKk w))
  | 0x4 => some (.sneImm (fieldX w) (fieldKk w))
  | 0x5 => if (fieldN w).val = 0 then some (.seReg (fieldX w) (fieldY w)) else none
  | 0x6 => some (.ldImm (fieldX w) (fieldKk w))
  | 0x7 => some (.addImm (fieldX w) (fieldKk w))
  | 0x8 => decodeFamilyEight w
  | 0x9 => if (fieldN w).val = 0 then some (.sneReg (fieldX w) (fieldY w)) else none
  | 0xA => some (.ldI (fieldAddr w))
  | 0xB => some (.jpV0 (fieldAddr w))
  | 0xC => some (.rnd (fieldX w) (fieldKk w))
  | 0xD => some (.drw (fieldX w) (fieldY w) (fieldN w))
  | 0xE => decodeFamilyKey w
  | _ => decodeFamilyMisc w

/-- The word of two consecutive bytes, big-endian: the first byte is bits 15..8 (20_memory.md R64). -/
def wordOfBytes (hi lo : Byte) : Word := hi ++ lo

/-- The bytes of a word in the order they lie in memory (R64). -/
def bytesOfWord (w : Word) : Byte × Byte := (w.extractLsb' 8 8, w.extractLsb' 0 8)

/-- The instruction at the head of a byte sequence, with the bytes after it; a rejection says why. -/
def decode : List Byte → Except DecodeError (Instr × List Byte)
  | hi :: lo :: rest =>
    match decodeWord (wordOfBytes hi lo) with
    | some i => .ok (i, rest)
    | none => .error (.invalidOpcode (wordOfBytes hi lo))
  | _ => .error .truncated

/-! ### Encoding (R82, R85) -/

/-- Format A: `oooo aaaa aaaa aaaa`. -/
def encodeA (major : Fin 16) (addr : Addr12) : Word :=
  BitVec.ofNat 16 (major.val * 4096 + addr.toNat)

/-- Formats XK and XF: `oooo xxxx kkkk kkkk`. -/
def encodeXK (major : Fin 16) (x : Reg) (kk : Byte) : Word :=
  BitVec.ofNat 16 (major.val * 4096 + x.val * 256 + kk.toNat)

/-- Formats XY and XYN: `oooo xxxx yyyy nnnn`. -/
def encodeXYN (major : Fin 16) (x y : Reg) (n : Fin 16) : Word :=
  BitVec.ofNat 16 (major.val * 4096 + x.val * 256 + y.val * 16 + n.val)

/-- The word of an instruction. -/
def encode : Instr → Word
  | .nop => 0x0000
  | .cls => 0x00E0
  | .ret => 0x00EE
  | .jp addr => encodeA 0x1 addr
  | .call addr => encodeA 0x2 addr
  | .seImm x kk => encodeXK 0x3 x kk
  | .sneImm x kk => encodeXK 0x4 x kk
  | .seReg x y => encodeXYN 0x5 x y 0x0
  | .ldImm x kk => encodeXK 0x6 x kk
  | .addImm x kk => encodeXK 0x7 x kk
  | .ldReg x y => encodeXYN 0x8 x y 0x0
  | .orReg x y => encodeXYN 0x8 x y 0x1
  | .andReg x y => encodeXYN 0x8 x y 0x2
  | .xorReg x y => encodeXYN 0x8 x y 0x3
  | .addReg x y => encodeXYN 0x8 x y 0x4
  | .subReg x y => encodeXYN 0x8 x y 0x5
  | .shr x y => encodeXYN 0x8 x y 0x6
  | .subnReg x y => encodeXYN 0x8 x y 0x7
  | .shl x y => encodeXYN 0x8 x y 0xE
  | .sneReg x y => encodeXYN 0x9 x y 0x0
  | .ldI addr => encodeA 0xA addr
  | .jpV0 addr => encodeA 0xB addr
  | .rnd x kk => encodeXK 0xC x kk
  | .drw x y n => encodeXYN 0xD x y n
  | .skp x => encodeXK 0xE x 0x9E
  | .sknp x => encodeXK 0xE x 0xA1
  | .ldVxDt x => encodeXK 0xF x 0x07
  | .ldVxK x => encodeXK 0xF x 0x0A
  | .ldDtVx x => encodeXK 0xF x 0x15
  | .ldStVx x => encodeXK 0xF x 0x18
  | .addI x => encodeXK 0xF x 0x1E
  | .ldF x => encodeXK 0xF x 0x29
  | .ldB x => encodeXK 0xF x 0x33
  | .storeRegs x => encodeXK 0xF x 0x55
  | .loadRegs x => encodeXK 0xF x 0x65

/-- The two bytes of an instruction, as they lie in memory. -/
def encodeBytes (i : Instr) : List Byte :=
  [(bytesOfWord (encode i)).1, (bytesOfWord (encode i)).2]

/-- The word whose low `nbits` bits are `w`, the bits above them zero. -/
def tableWord (nbits w : Nat) : Word := BitVec.ofNat 16 (w % 2 ^ nbits)

/-- What the decoder reads from an instruction whose bits are `w`, numbered as spec/opcode_table.json numbers them. -/
def decodeTableWord (nbits w : Nat) : Option Instr :=
  match decode [(bytesOfWord (tableWord nbits w)).1, (bytesOfWord (tableWord nbits w)).2] with
  | .ok (i, _) => some i
  | .error _ => none

end Sys2Proof
end

