-- ==== Sys2Proof/Config.lean ====
section
/-! DEFINITION. The implementation parameters of spec 00_scope.md R6, and the values the spec leaves OPEN.
`randomByte` and `timerPeriodLessOne` have no body: nothing in Lean can evaluate them, and a claim holds for every value
of theirs. `font` and `drawWrap` have the spec's default as their body. -/

namespace Sys2Proof

/-- MEM_SIZE: bytes of memory, addresses 0x000 .. 0xFFF. -/
def Config.memSize : Nat := 4096

/-- FONT_END + 1: the font occupies 0x000 .. 0x04F. -/
def Config.fontSize : Nat := 0x50

/-- GLYPH_BYTES. -/
def Config.glyphBytes : Nat := 5

/-- PROGRAM_BASE: where `load` places the ROM and where pc starts. -/
def Config.programBase : Nat := 0x200

/-- MAX_ROM: the largest ROM `load` accepts. -/
def Config.maxRom : Nat := 3584

/-- PC_LIMIT: the pc at or above which the run ends. -/
def Config.pcLimit : Nat := 4094

/-- FONT (10_state.md R26): the spec's default table of glyph bytes, one glyph a line.
PRESUMED by the spec itself (general knowledge, 93_implementation_defined.md G1); log 6. -/
def Config.font : List Byte :=
  [0xF0, 0x90, 0x90, 0x90, 0xF0,
   0x20, 0x60, 0x20, 0x20, 0x70,
   0xF0, 0x10, 0xF0, 0x80, 0xF0,
   0xF0, 0x10, 0xF0, 0x10, 0xF0] ++
  [0x90, 0x90, 0xF0, 0x10, 0x10,
   0xF0, 0x80, 0xF0, 0x10, 0xF0,
   0xF0, 0x80, 0xF0, 0x90, 0xF0,
   0xF0, 0x10, 0x20, 0x40, 0x40] ++
  [0xF0, 0x90, 0xF0, 0x90, 0xF0,
   0xF0, 0x90, 0xF0, 0x10, 0xF0,
   0xF0, 0x90, 0xF0, 0x90, 0x90,
   0xE0, 0x90, 0xE0, 0x90, 0xE0] ++
  [0xF0, 0x80, 0x80, 0x80, 0xF0,
   0xE0, 0x90, 0x90, 0x90, 0xE0,
   0xF0, 0x80, 0xF0, 0x80, 0xF0,
   0xF0, 0x80, 0xF0, 0x80, 0x80]

/-- DRAW_WRAP (93_implementation_defined.md row 1): the default, clip (43_display.md R203); log 8. -/
def Config.drawWrap : Bool := false

/-- RAND (R6, 41_arith_logic.md R146): the free byte of the k-th execution of RND; log 4. -/
opaque Config.randomByte : Nat → Byte

/-- TIMER_PERIOD - 1, in the units of the host's `now`: a free value; log 3. -/
opaque Config.timerPeriodLessOne : Nat

/-- TIMER_PERIOD (R6, 40_cycle.md R102): OPEN, at least one unit of host time; log 3. -/
def Config.timerPeriod : Nat := Config.timerPeriodLessOne + 1

end Sys2Proof
end

