-- ==== Sys2Proof/Machine/State.lean ====
section
/-! DEFINITION. The state of the block (10_state.md R20 to R36) as plain data, the fault kinds (60_exceptions.md R260) and the
state after reset (10_state.md R44). The two last fields of `State` are the model's own (logs 2 and 4). -/

namespace Sys2Proof.Machine

/-- The nine fault kinds of 60_exceptions.md R260, each with its info. Raising one in a step is a NEXT state with the fault
latched in `State.fault` (R261), never an outcome `fault` of the instruction: log 1. -/
inductive FaultKind where
  /-- Code 1: raised by fetch and decode of a word that decodes to INVALID (40_cycle.md R111). Safe: the spec's own fault. -/
  | invalidOpcode (w : Word)
  /-- Code 2: raised by `CALL` with 16 return addresses pushed (42_control_flow.md R171). Safe: the spec's own fault. -/
  | stackOverflow
  /-- Code 3: raised by `RET` with the stack empty (R172). Safe: the spec's own fault. -/
  | stackUnderflow
  /-- Code 4: raised by `load` of more than 3584 bytes (70_reset_and_hazards.md R292). Safe: the spec's own fault. -/
  | romTooLarge (len : Nat)
  /-- Code 5: raised by `DRW`, `LD B`, `LD [I], Vx`, `LD Vx, [I]` at an address above 0xFFF (20_memory.md R62, R63). Safe: a model
  fault of the spec. -/
  | memoryOutOfBounds (a : Nat)
  /-- Code 6: raised by `LD B`, `LD [I], Vx` at an address of the font (20_memory.md R63). Safe: a model fault of the spec. -/
  | fontRegionStore (a : Nat)
  /-- Code 7: raised by `ADD I, Vx` when the sum is above 0xFFFF (45_memory_index.md R241). Safe: a model fault of the spec. -/
  | indexOverflow (sum : Nat)
  /-- Code 8: raised by `SKP`, `SKNP` when Vx is above 0xF (42_control_flow.md R177, R178). Safe: a model fault of the spec. -/
  | keyIndexOutOfRange (k : Byte)
  /-- Code 9: raised by `JP V0, addr` when the target is above 0xFFF (R180). Safe: a model fault of the spec. -/
  | jumpOutOfRange (t : Nat)
  deriving DecidableEq, Repr

/-- The fault record `(F, pc, info)` of 10_state.md R35; the kind carries its info. -/
structure FaultRecord where
  kind : FaultKind
  pc   : Word
  deriving DecidableEq, Repr

/-- The faults a step answers with. -/
inductive Fault where
  /-- Answered by `step`, and by it alone, in a state in which a fault is latched: "changes nothing and returns the latched fault
  again" (40_cycle.md R104). Safe: the state does not change, so nothing of it is lost (log 1). -/
  | latched (record : FaultRecord)
  deriving DecidableEq, Repr

/-- The refusals. -/
inductive Refusal where
  /-- Answered by an arm of `exec` whose instruction has no meaning yet; no arm does. Safe: the machine stops. -/
  | notModelled (mnemonic : String)
  /-- Answered by `hostCall`, never by a step: a host call whose `now` is below an earlier one breaks the host's duty and has no
  meaning (10_state.md R43(b)). Unsafe only in that such hosts are left out, as the spec says (log 13). -/
  | timeWentBack
  deriving DecidableEq, Repr

/-- The bytes of memory that differ from the reset contents, as (address, byte) with addresses strictly rising (log 7). -/
abbrev Memory := List Host.Cell

/-- The display, `disp[c][r]` at column c and row r (10_state.md R27). -/
abbrev Display := Vector (Vector Bool 32) 64

/-- The machine-state aggregate (R20). -/
structure State where
  /-- V0 .. VF (R21); `v[15]` is the flag VF (R22). -/
  v : Vector Byte 16
  /-- The index register I (R23). -/
  i : Word
  /-- The program counter (R24). -/
  pc : Word
  /-- The 16 return-address slots (R25). -/
  stack : Vector Word 16
  /-- The stack depth, 0 .. 16 (R25, 90_conflicts.md C2). -/
  sp : Fin 17
  /-- Memory (R26). -/
  mem : Memory
  /-- The display (R27). -/
  disp : Display
  /-- The delay timer DT (R28). -/
  dt : Byte
  /-- The sound timer ST (R28). -/
  st : Byte
  /-- The keypad K (R29). -/
  keys : Vector Bool 16
  /-- The pending-key-wait register (R30). -/
  wait : Option Reg
  /-- The reported key (R31). -/
  rkey : Option Key
  /-- The run flag (R32). -/
  running : Bool
  /-- The loaded ROM length (R33). -/
  romLen : Nat
  /-- The last-decrement timestamp (R34). -/
  tLast : Nat
  /-- The latched fault record (R35). -/
  fault : Option FaultRecord
  /-- The model's own: the host time the next step is given (log 2). -/
  now : Nat
  /-- The model's own: how many random bytes have been drawn (log 4). -/
  draws : Nat
  deriving DecidableEq, Repr

/-- Every element at the value R44 gives it after `reset(now)`; memory lists nothing, so it reads as the font and zero. -/
def State.resetAt (now : Nat) : State where
  v := Vector.replicate 16 0
  i := 0
  pc := 0x200
  stack := Vector.replicate 16 0
  sp := 0
  mem := []
  disp := Vector.replicate 64 (Vector.replicate 32 false)
  dt := 0
  st := 0
  keys := Vector.replicate 16 false
  wait := none
  rkey := none
  running := true
  romLen := 0
  tLast := now
  fault := none
  now := now
  draws := 0

/-- A newly created block (70_reset_and_hazards.md R293), created at host time 0: DESIGN CHOICE, log 5. -/
def State.reset : State := State.resetAt 0

end Sys2Proof.Machine
end

