-- ==== Sys2Proof/Machine/Ops.lean ====
section
/-! DEFINITION. The named operations over the state: one update for each register, memory reads and writes with their checks
(20_memory.md R62, R63), the stack (10_state.md R25), moving pc (40_cycle.md R109), and raising a fault (60_exceptions.md R261),
which is the block's only exception mechanism and has no return (R266, R267). -/

namespace Sys2Proof.Machine

/-- What an instruction answers. -/
abbrev Result := Host.Outcome State Fault Refusal

/-! ### Registers -/

/-- The flag register's number (10_state.md R22). -/
def vf : Reg := 15

/-- `V[r]`. -/
def State.reg (s : State) (r : Reg) : Byte := s.v[r]

/-- `V[r] <- b`. -/
def State.setReg (s : State) (r : Reg) (b : Byte) : State := { s with v := s.v.set r b }

/-- All general registers at once. -/
def State.setRegs (s : State) (v : Vector Byte 16) : State := { s with v := v }

/-- `I <- w`. -/
def State.setI (s : State) (w : Word) : State := { s with i := w }

/-- `pc <- w`. -/
def State.setPc (s : State) (w : Word) : State := { s with pc := w }

/-- The stack and its depth. -/
def State.setStack (s : State) (stack : Vector Word 16) (sp : Fin 17) : State := { s with stack := stack, sp := sp }

/-- All of memory. -/
def State.setMem (s : State) (m : Memory) : State := { s with mem := m }

/-- All of the display. -/
def State.setDisp (s : State) (d : Display) : State := { s with disp := d }

/-- `DT <- b`. -/
def State.setDt (s : State) (b : Byte) : State := { s with dt := b }

/-- `ST <- b`. -/
def State.setSt (s : State) (b : Byte) : State := { s with st := b }

/-- `K[k] <- p`. -/
def State.setKey (s : State) (k : Key) (p : Bool) : State := { s with keys := s.keys.set k p }

/-- `wait <- r`. -/
def State.setWait (s : State) (r : Option Reg) : State := { s with wait := r }

/-- `rkey <- k`. -/
def State.setRkey (s : State) (k : Option Key) : State := { s with rkey := k }

/-- `running <- b`. -/
def State.setRunning (s : State) (b : Bool) : State := { s with running := b }

/-- `rom_len <- n`. -/
def State.setRomLen (s : State) (n : Nat) : State := { s with romLen := n }

/-- `t_last <- t`. -/
def State.setTLast (s : State) (t : Nat) : State := { s with tLast := t }

/-- `fault <- f`. -/
def State.setFault (s : State) (f : Option FaultRecord) : State := { s with fault := f }

/-- The host time the next step is given (log 2). -/
def State.setNow (s : State) (t : Nat) : State := { s with now := t }

/-- The count of random bytes drawn (log 4). -/
def State.setDraws (s : State) (n : Nat) : State := { s with draws := n }

/-! ### Moving pc (40_cycle.md R109) -/

/-- `pc <- pc + 2`; the sum is exact at every pc a step executes at (10_state.md R24; log 11). -/
def State.advance (s : State) : State := s.setPc (s.pc + 2)

/-- A conditional skip: `pc + 4` if the condition holds, else `pc + 2` (42_control_flow.md R170). -/
def State.skipIf (s : State) (c : Bool) : State := s.setPc (if c then s.pc + 4 else s.pc + 2)

/-! ### Memory (10_state.md R26, 20_memory.md R60 to R66) -/

/-- What an address that memory does not list reads as: the reset contents, the font and zero (R44, R61; log 7). -/
def Memory.unlisted (a : Nat) : Byte := Config.font.getD a 0

/-- `mem[a]`, with no bounds check. -/
def Memory.byteAt : Memory → Nat → Byte
  | [], a => Memory.unlisted a
  | (b, v) :: rest, a => if a = b then v else Memory.byteAt rest a

/-- `mem[a] <- v`, with no check: used by `load` and by checked writes. It keeps the canonical form. -/
def Memory.put : Memory → Nat → Byte → Memory
  | [], a, v => if v = Memory.unlisted a then [] else [(a, v)]
  | (b, w) :: rest, a, v =>
    if a < b then (if v = Memory.unlisted a then (b, w) :: rest else (a, v) :: (b, w) :: rest)
    else if a = b then (if v = Memory.unlisted a then rest else (a, v) :: rest)
    else (b, w) :: Memory.put rest a v

/-- `mem[a], mem[a+1], .. <- bytes`, with no check. -/
def Memory.putBytes : Memory → Nat → List Byte → Memory
  | m, _, [] => m
  | m, a, v :: rest => Memory.putBytes (Memory.put m a v) (a + 1) rest

/-- The canonical form: addresses strictly rising and inside memory, and no entry equal to what an unlisted address reads as. -/
abbrev Memory.wf (m : Memory) : Prop :=
  (m.map Prod.fst).Pairwise (· < ·) ∧ ∀ c ∈ m, c.1 < Config.memSize ∧ c.2 ≠ Memory.unlisted c.1

/-- `MemRead(a, 1)` (R62). -/
def memRead (m : Memory) (a : Nat) : Except FaultKind Byte :=
  if Config.memSize ≤ a then .error (.memoryOutOfBounds a) else .ok (m.byteAt a)

/-- `MemWrite(a, 1, v)` (R63). -/
def memWrite (m : Memory) (a : Nat) (v : Byte) : Except FaultKind Memory :=
  if Config.memSize ≤ a then .error (.memoryOutOfBounds a)
  else if a < Config.fontSize then .error (.fontRegionStore a)
  else .ok (m.put a v)

/-- `n` reads at ascending addresses from `a`; the first failing address is the one reported (60_exceptions.md R264). -/
def readBlock (m : Memory) : Nat → Nat → Except FaultKind (List Byte)
  | _, 0 => .ok []
  | a, n + 1 => do
    let b ← memRead m a
    let rest ← readBlock m (a + 1) n
    .ok (b :: rest)

/-- Writes of `bytes` at ascending addresses from `a`. A failing write discards every write before it, so that none is performed
(45_memory_index.md, opening; R264). -/
def writeBlock : Memory → Nat → List Byte → Except FaultKind Memory
  | m, _, [] => .ok m
  | m, a, v :: rest => do
    let m' ← memWrite m a v
    writeBlock m' (a + 1) rest

/-! ### The call stack (10_state.md R25) -/

/-- `S[sp] <- w; sp <- sp + 1`, which needs `sp < 16` (42_control_flow.md R171). -/
def State.push (s : State) (w : Word) : Except FaultKind State :=
  if h : s.sp.val < 16 then .ok (s.setStack (s.stack.set s.sp.val w) ⟨s.sp.val + 1, by omega⟩)
  else .error .stackOverflow

/-- `sp <- sp - 1`, and the word in `S[sp]`, which needs `sp > 0` (R172); the slot keeps its value. -/
def State.pop (s : State) : Except FaultKind (Word × State) :=
  if h : 0 < s.sp.val then
    .ok (s.stack[s.sp.val - 1]'(by omega), s.setStack s.stack ⟨s.sp.val - 1, by omega⟩)
  else .error .stackUnderflow

/-! ### Faults (60_exceptions.md R260, R261) -/

/-- The numeric code of R260. -/
def FaultKind.code : FaultKind → Nat
  | .invalidOpcode _ => 1
  | .stackOverflow => 2
  | .stackUnderflow => 3
  | .romTooLarge _ => 4
  | .memoryOutOfBounds _ => 5
  | .fontRegionStore _ => 6
  | .indexOverflow _ => 7
  | .keyIndexOutOfRange _ => 8
  | .jumpOutOfRange _ => 9

/-- `raise F(info)` (R261): the record is latched with the pc of the faulting instruction, and nothing else is written. -/
def State.raise (s : State) (k : FaultKind) : State := s.setFault (some ⟨k, s.pc⟩)

/-- The end of an instruction: the state it wrote, or, where a check of it failed, the state before it with the fault raised. -/
def complete (s : State) : Except FaultKind State → Result
  | .ok t => .next t
  | .error k => .next (s.raise k)

end Sys2Proof.Machine
end

