-- ==== Sys2Proof/Machine/Flags.lean ====
section
/-! DEFINITION. Results and flags of the arithmetic instructions (41_arith_logic.md R130 to R134): operands as exact natural
numbers, one explicit reduction to 8 bits at the end. Each operation gives the result and the flag value, 0 or 1. -/

namespace Sys2Proof.Machine

/-- A flag as the byte VF receives. -/
def flagByte (b : Bool) : Byte := if b then 1 else 0

/-- Add with carry (R131): `(a + b) mod 256`, flag 1 if `a + b > 255`. -/
def addFlag (a b : Byte) : Byte × Byte :=
  (BitVec.ofNat 8 (a.toNat + b.toNat), flagByte (decide (255 < a.toNat + b.toNat)))

/-- Subtract with borrow (R132): `a - b` or `256 - (b - a)`, flag 1 if `a >= b`. -/
def subFlag (a b : Byte) : Byte × Byte :=
  if b.toNat ≤ a.toNat then (BitVec.ofNat 8 (a.toNat - b.toNat), flagByte true)
  else (BitVec.ofNat 8 (256 - (b.toNat - a.toNat)), flagByte false)

/-- Shift right (R133): `v >> 1`, flag `v & 1`. -/
def shrFlag (v : Byte) : Byte × Byte := (v >>> 1, v &&& 1)

/-- Shift left (R133): `(v << 1) mod 256`, flag `v >> 7`. -/
def shlFlag (v : Byte) : Byte × Byte := (v <<< 1, v >>> 7)

/-- The order of writes (R134): the result to `V[x]`, then the flag to VF, so that the flag survives when x = 0xF. -/
def State.writeWithFlag (s : State) (x : Reg) (p : Byte × Byte) : State := (s.setReg x p.1).setReg vf p.2

end Sys2Proof.Machine
end

