-- ==== Sys2Proof/Machine/ArithLogic.lean ====
section
/-! DEFINITION. The meanings of 41_arith_logic.md: loads, immediate add, family 8 and RND. -/

namespace Sys2Proof.Machine

/-- LD Vx, kk (R135). -/
def execLdImm (x : Reg) (kk : Byte) (s : State) : Result := .next (s.setReg x kk).advance

/-- ADD Vx, kk (R136): wraps, and no flag is written. -/
def execAddImm (x : Reg) (kk : Byte) (s : State) : Result :=
  .next (s.setReg x (addFlag (s.reg x) kk).1).advance

/-- LD Vx, Vy (R137). -/
def execLdReg (x y : Reg) (s : State) : Result := .next (s.setReg x (s.reg y)).advance

/-- OR Vx, Vy (R138): VF is not written. -/
def execOrReg (x y : Reg) (s : State) : Result := .next (s.setReg x (s.reg x ||| s.reg y)).advance

/-- AND Vx, Vy (R139): VF is not written. -/
def execAndReg (x y : Reg) (s : State) : Result := .next (s.setReg x (s.reg x &&& s.reg y)).advance

/-- XOR Vx, Vy (R140): VF is not written. -/
def execXorReg (x y : Reg) (s : State) : Result := .next (s.setReg x (s.reg x ^^^ s.reg y)).advance

/-- ADD Vx, Vy (R141). -/
def execAddReg (x y : Reg) (s : State) : Result :=
  .next (s.writeWithFlag x (addFlag (s.reg x) (s.reg y))).advance

/-- SUB Vx, Vy (R142): `Vx - Vy`. -/
def execSubReg (x y : Reg) (s : State) : Result :=
  .next (s.writeWithFlag x (subFlag (s.reg x) (s.reg y))).advance

/-- SHR Vx (R143): field y is not read. -/
def execShr (x _y : Reg) (s : State) : Result := .next (s.writeWithFlag x (shrFlag (s.reg x))).advance

/-- SUBN Vx, Vy (R144): `Vy - Vx`. -/
def execSubnReg (x y : Reg) (s : State) : Result :=
  .next (s.writeWithFlag x (subFlag (s.reg y) (s.reg x))).advance

/-- SHL Vx (R145): field y is not read. -/
def execShl (x _y : Reg) (s : State) : Result := .next (s.writeWithFlag x (shlFlag (s.reg x))).advance

/-- RND Vx, kk with the drawn byte as an argument (R146). -/
def rndWith (r : Byte) (x : Reg) (kk : Byte) (s : State) : State :=
  ((s.setReg x (r &&& kk)).setDraws (s.draws + 1)).advance

/-- RND Vx, kk (R146): the byte is the free value of this draw (log 4). -/
def execRnd (x : Reg) (kk : Byte) (s : State) : Result :=
  .next (rndWith (Config.randomByte s.draws) x kk s)

end Sys2Proof.Machine
end

