-- ==== Sys2Proof/Machine/Operands.lean ====
section
/-! DEFINITION. The operand forms: the zero-extended address, the computed jump target and glyph address (30_encoding.md R83), the
key index of the key skips, the index sum, the decimal digits, and the register block V0 .. Vx. -/

namespace Sys2Proof.Machine

/-- `zext_16(addr)`. -/
def zext16 (addr : Addr12) : Word := addr.setWidth 16

/-- The target of `JP V0, addr` (42_control_flow.md R180): an exact sum, checked against the 12-bit address space. -/
def jumpTarget (addr : Addr12) (v0 : Byte) : Except FaultKind Word :=
  if 0xFFF < addr.toNat + v0.toNat then .error (.jumpOutOfRange (addr.toNat + v0.toNat))
  else .ok (BitVec.ofNat 16 (addr.toNat + v0.toNat))

/-- The sum of `ADD I, Vx` (45_memory_index.md R241): exact, checked against the 16-bit register. -/
def indexSum (i : Word) (v : Byte) : Except FaultKind Word :=
  if 0xFFFF < i.toNat + v.toNat then .error (.indexOverflow (i.toNat + v.toNat))
  else .ok (BitVec.ofNat 16 (i.toNat + v.toNat))

/-- The glyph address of `LD F, Vx` (R242): 5 times the low nibble. -/
def glyphAddress (v : Byte) : Word := BitVec.ofNat 16 (Config.glyphBytes * (v.toNat % 16))

/-- The key that V[x] numbers (42_control_flow.md R177). -/
def keyIndex (v : Byte) : Except FaultKind Key :=
  if h : v.toNat < 16 then .ok ⟨v.toNat, h⟩ else .error (.keyIndexOutOfRange v)

/-- `K[k]` for the key that V[x] numbers. -/
def keyPressed (s : State) (x : Reg) : Except FaultKind Bool := do
  let k ← keyIndex (s.reg x)
  .ok s.keys[k]

/-- The hundreds, tens and ones digits (45_memory_index.md R243). -/
def bcdDigits (v : Byte) : List Byte :=
  [BitVec.ofNat 8 (v.toNat / 100), BitVec.ofNat 8 (v.toNat / 10 % 10), BitVec.ofNat 8 (v.toNat % 10)]

/-- V0 .. Vx, in order (R244). -/
def regsUpTo (s : State) (x : Reg) : List Byte := s.v.toList.take (x.val + 1)

/-- The register file with `bytes` in V0, V1, .. and every register after them as before (R245). -/
def regsWith (s : State) (bytes : List Byte) : Vector Byte 16 :=
  Vector.ofFn fun j : Fin 16 => bytes.getD j.val s.v[j]

end Sys2Proof.Machine
end

