-- ==== Sys2Proof/Machine/ControlFlow.lean ====
section
/-! DEFINITION. The meanings of 42_control_flow.md (call, return, skips, jumps), and of the no-op word (40_cycle.md R110). -/

namespace Sys2Proof.Machine

/-- NOP (40_cycle.md R110). -/
def execNop (s : State) : Result := .next s.advance

/-- CALL addr (R171): push `pc + 2`, go to addr; StackOverflow at depth 16. -/
def execCall (addr : Addr12) (s : State) : Result :=
  complete s do
    let t ← s.push (s.pc + 2)
    .ok (t.setPc (zext16 addr))

/-- RET (R172): pop into pc, no further advance; StackUnderflow at depth 0. -/
def execRet (s : State) : Result :=
  complete s do
    let (w, t) ← s.pop
    .ok (t.setPc w)

/-- SE Vx, kk (R173). -/
def execSeImm (x : Reg) (kk : Byte) (s : State) : Result := .next (s.skipIf (s.reg x == kk))

/-- SNE Vx, kk (R174). -/
def execSneImm (x : Reg) (kk : Byte) (s : State) : Result := .next (s.skipIf (s.reg x != kk))

/-- SE Vx, Vy (R175). -/
def execSeReg (x y : Reg) (s : State) : Result := .next (s.skipIf (s.reg x == s.reg y))

/-- SNE Vx, Vy (R176). -/
def execSneReg (x y : Reg) (s : State) : Result := .next (s.skipIf (s.reg x != s.reg y))

/-- SKP Vx (R177): skip if the key numbered V[x] is pressed; KeyIndexOutOfRange above 0xF. -/
def execSkp (x : Reg) (s : State) : Result :=
  complete s do
    let p ← keyPressed s x
    .ok (s.skipIf p)

/-- SKNP Vx (R178): skip if the key numbered V[x] is not pressed; KeyIndexOutOfRange above 0xF. -/
def execSknp (x : Reg) (s : State) : Result :=
  complete s do
    let p ← keyPressed s x
    .ok (s.skipIf !p)

/-- JP addr (R179). -/
def execJp (addr : Addr12) (s : State) : Result := .next (s.setPc (zext16 addr))

/-- JP V0, addr (R180): JumpOutOfRange when `addr + V0` is above 0xFFF. -/
def execJpV0 (addr : Addr12) (s : State) : Result :=
  complete s do
    let t ← jumpTarget addr (s.reg 0)
    .ok (s.setPc t)

end Sys2Proof.Machine
end

