-- ==== Sys2Proof/Machine/Display.lean ====
section
/-! DEFINITION. The display instructions of 43_display.md: CLS and the XOR sprite compositor with its collision detector. The
loops are those of R202's pseudocode. `wrap` is the parameter DRAW_WRAP (93_implementation_defined.md row 1): false clips
(R203), true takes coordinates modulo the display size (log 8). -/

namespace Sys2Proof.Machine

/-- Every cell false. -/
def blankDisplay : Display := Vector.replicate 64 (Vector.replicate 32 false)

/-- A coordinate on an axis of `lim` cells: itself inside the display; outside, dropped (R203), or modulo `lim` if `wrap`. -/
def onAxis (wrap : Bool) (lim : Nat) [NeZero lim] (p : Nat) : Option (Fin lim) :=
  if h : p < lim then some ⟨p, h⟩ else if wrap then some (Fin.ofNat lim p) else none

/-- `disp[c][r] <- not disp[c][r]`. -/
def toggleCell (d : Display) (c : Fin 64) (r : Fin 32) : Display := d.set c (d[c].set r (!d[c][r]))

/-- One 1 bit of a sprite at (c, r): toggle its cell, noting whether it was lit. The pair is the display and `collide`. -/
def plotBit (wrap : Bool) (c r : Nat) (acc : Display × Bool) : Display × Bool :=
  match onAxis wrap 64 c, onAxis wrap 32 r with
  | some c, some r => (toggleCell acc.1 c r, acc.2 || acc.1[c][r])
  | _, _ => acc

/-- Bit 7 - j of a sprite byte, at column ox + j of row r (R200). -/
def drawBit (wrap : Bool) (ox r : Nat) (b : Byte) (acc : Display × Bool) (j : Nat) : Display × Bool :=
  if b.getLsbD (7 - j) then plotBit wrap (ox + j) r acc else acc

/-- One sprite byte at row r, bit 7 first (R200). -/
def drawByte (wrap : Bool) (ox r : Nat) (b : Byte) (acc : Display × Bool) : Display × Bool :=
  (List.range 8).foldl (drawBit wrap ox r b) acc

/-- The sprite's bytes at consecutive rows from r (R200, R202). -/
def drawBytes (wrap : Bool) (ox : Nat) : Nat → List Byte → Display × Bool → Display × Bool
  | _, [], acc => acc
  | r, b :: rest, acc => drawBytes wrap ox (r + 1) rest (drawByte wrap ox r b acc)

/-- CLS (R201): VF is not written. -/
def execCls (s : State) : Result := .next (s.setDisp blankDisplay).advance

/-- DRW Vx, Vy, n (R202): all n bytes are read before any cell changes; then the draw, then VF. -/
def execDrw (x y : Reg) (n : Fin 16) (s : State) : Result :=
  complete s do
    let rows ← readBlock s.mem s.i.toNat n.val
    let p := drawBytes Config.drawWrap (s.reg x).toNat (s.reg y).toNat rows (s.disp, false)
    .ok ((s.setDisp p.1).setReg vf (flagByte p.2)).advance

end Sys2Proof.Machine
end

