-- ==== Sys2Proof/Machine/MemoryIndex.lean ====
section
/-! DEFINITION. The meanings of 45_memory_index.md: the index register, the font address, BCD and the memory block transfers. -/

namespace Sys2Proof.Machine

/-- LD I, addr (R240). -/
def execLdI (addr : Addr12) (s : State) : Result := .next (s.setI (zext16 addr)).advance

/-- ADD I, Vx (R241): no flag; IndexOverflow when the sum is above 0xFFFF. -/
def execAddI (x : Reg) (s : State) : Result :=
  complete s do
    let sum ← indexSum s.i (s.reg x)
    .ok (s.setI sum).advance

/-- LD F, Vx (R242). -/
def execLdF (x : Reg) (s : State) : Result := .next (s.setI (glyphAddress (s.reg x))).advance

/-- LD B, Vx (R243): I is not changed. -/
def execLdB (x : Reg) (s : State) : Result :=
  complete s do
    let m ← writeBlock s.mem s.i.toNat (bcdDigits (s.reg x))
    .ok (s.setMem m).advance

/-- LD [I], Vx (R244): I is not changed. -/
def execStoreRegs (x : Reg) (s : State) : Result :=
  complete s do
    let m ← writeBlock s.mem s.i.toNat (regsUpTo s x)
    .ok (s.setMem m).advance

/-- LD Vx, [I] (R245): I is not changed. -/
def execLoadRegs (x : Reg) (s : State) : Result :=
  complete s do
    let bytes ← readBlock s.mem s.i.toNat (x.val + 1)
    .ok (s.setRegs (regsWith s bytes)).advance

end Sys2Proof.Machine
end

