-- ==== Sys2Proof/Machine/TimerKeypad.lean ====
section
/-! DEFINITION. The meanings of 44_timer_keypad.md: timer access and the wait for a key. The timer sub-step and the resolution of
the wait are in Machine/Cycle.lean. -/

namespace Sys2Proof.Machine

/-- LD Vx, DT (R220). -/
def execLdVxDt (x : Reg) (s : State) : Result := .next (s.setReg x s.dt).advance

/-- LD DT, Vx (R221): `t_last` is not changed. -/
def execLdDtVx (x : Reg) (s : State) : Result := .next (s.setDt (s.reg x)).advance

/-- LD ST, Vx (R222). -/
def execLdStVx (x : Reg) (s : State) : Result := .next (s.setSt (s.reg x)).advance

/-- LD Vx, K (R223): the wait begins; pc is not changed and `rkey` is not looked at. -/
def execLdVxK (x : Reg) (s : State) : Result := .next (s.setWait (some x))

end Sys2Proof.Machine
end

