-- ==== Sys2Proof/Machine/Cycle.lean ====
section
/-! DEFINITION. The step cycle of 40_cycle.md: the timer sub-step, the key wait and its resolution, the termination check, fetch,
decode and dispatch, in the order of R101. The timer period and the host time are arguments here. -/

namespace Sys2Proof.Machine

/-- One tick of a timer: a timer at 0 stays 0 (R103). -/
def countDown (b : Byte) : Byte := if b = 0 then 0 else b - 1

/-- The timer sub-step (R102): at most one tick of each timer, and `t_last` becomes `now`. -/
def timerSubStep (period now : Nat) (s : State) : State :=
  if period ≤ now - s.tLast then ((s.setDt (countDown s.dt)).setSt (countDown s.st)).setTLast now else s

/-- A step that finds `wait = some r` (R105): if a key is reported the wait resolves (R106), else nothing more happens. -/
def waitStep (r : Reg) (s : State) : State :=
  match s.rkey with
  | some k => (((s.setReg r (BitVec.ofNat 8 k.val)).setWait none).setRkey none).advance
  | none => s

/-- The termination check (R107). -/
def endOfRun (s : State) : Bool :=
  decide (Config.pcLimit ≤ s.pc.toNat) || decide (Config.programBase + s.romLen ≤ s.pc.toNat)

/-- Fetch (R108): two bytes, big-endian, from pc and pc + 1. -/
def fetchWord (s : State) : Except FaultKind Word := do
  let hi ← memRead s.mem s.pc.toNat
  let lo ← memRead s.mem (s.pc.toNat + 1)
  .ok (wordOfBytes hi lo)

/-- Decode and dispatch (R111): a word that matches no operation raises InvalidOpcode. -/
def executeWord (w : Word) (s : State) : Result :=
  match decodeWord w with
  | some i => exec i s
  | none => .next (s.raise (.invalidOpcode w))

/-- Fetch, decode and execute at pc. -/
def runInstr (s : State) : Result :=
  match fetchWord s with
  | .ok w => executeWord w s
  | .error k => .next (s.raise k)

/-- What a running step does after the timer sub-step (R101). -/
def afterTimers (s : State) : Result :=
  match s.wait with
  | some r => .next (waitStep r s)
  | none => if endOfRun s then .next (s.setRunning false) else runInstr s

/-- `step(now)` (R101). -/
def stepAt (period now : Nat) (s : State) : Result :=
  match s.fault with
  | some record => .fault (.latched record)
  | none => if s.running then afterTimers (timerSubStep period now s) else .next s

end Sys2Proof.Machine
end

