-- ==== Sys2Proof/Machine/Step.lean ====
section
/-! DEFINITION. One step of the machine, at the host time the state holds (log 2), and the placing of an instruction where the next
step fetches it. -/

namespace Sys2Proof.Machine

/-- `step(now)` for the host time the state holds (40_cycle.md R100). -/
def step (s : State) : Host.Outcome State Fault Refusal := stepAt Config.timerPeriod s.now s

/-- The address `withFetchWord` places an instruction at: pc, or 0x200 where pc is beyond the last fetchable address (R107). -/
def State.fetchPc (s : State) : Word := if s.pc.toNat < Config.pcLimit then s.pc else 0x200

/-- The ROM length `withFetchWord` leaves: the present one, or, where pc is at or past the end of the ROM, one that takes the
instruction in (at most 3583). -/
def State.fetchRomLen (s : State) : Nat :=
  if s.fetchPc.toNat < Config.programBase + s.romLen then s.romLen else s.fetchPc.toNat + 2 - Config.programBase

/-- `s` with the instruction of bits `w` loaded where the next step fetches it. A program is loaded from outside the block
(70_reset_and_hazards.md R291); this stands for that load, and also takes the block out of a fault, a halt and a key wait, in
which a step executes nothing (60_exceptions.md R275; log 10). -/
def State.withFetchWord (s : State) (nbits w : Nat) : State :=
  { s with
    pc := s.fetchPc
    mem := Memory.putBytes s.mem s.fetchPc.toNat
      [(bytesOfWord (tableWord nbits w)).1, (bytesOfWord (tableWord nbits w)).2]
    romLen := s.fetchRomLen
    running := true
    wait := none
    fault := none }

end Sys2Proof.Machine
end

