-- ==== Sys2Proof/Machine/HostOps.lean ====
section
/-! DEFINITION. The host interface of 10_state.md R37: the eight operations, what each gives back, and a run as a list of calls.
Key indices are in range by their type (R43(c)); calls are made one at a time and between steps because a run is a list (R43(a)); a
call whose `now` is below an earlier one is refused (R43(b)). -/

namespace Sys2Proof.Machine

/-- The host's operations (R37). -/
inductive HostCall where
  | reset (now : Nat)
  | load (bytes : List Byte) (now : Nat)
  | step (now : Nat)
  | setKeypad (k : Key) (pressed : Bool)
  | reportKeyPressed (k : Option Key)
  | display
  | isRunning
  | dump
  deriving DecidableEq, Repr

/-- The snapshot of `dump()` (R42). -/
structure Snapshot where
  v  : Vector Byte 16
  dt : Byte
  st : Byte
  pc : Word
  i  : Word
  deriving DecidableEq, Repr

/-- What a call gives back to the host. -/
inductive Reply where
  /-- Nothing, or `ok`. -/
  | ok
  /-- `fault F`: the kind with its info and the pc (60_exceptions.md R262). -/
  | fault (record : FaultRecord)
  /-- A copy of the display (R40). -/
  | cells (d : Display)
  /-- The run flag (R41). -/
  | flag (b : Bool)
  /-- The snapshot (R42). -/
  | snapshot (d : Snapshot)
  deriving DecidableEq, Repr

/-- `reset(now)` (70_reset_and_hazards.md R290). The model's count of draws goes on, so that a draw after a reset is a fresh one
(log 4). -/
def State.hostReset (s : State) (now : Nat) : State := (State.resetAt now).setDraws s.draws

/-- `load(bytes, now)` (R291): reset, copy, record the length; too many bytes: reset and latch RomTooLarge (R292). -/
def State.hostLoad (s : State) (bytes : List Byte) (now : Nat) : State :=
  if Config.maxRom < bytes.length then (s.hostReset now).raise (.romTooLarge bytes.length)
  else
    ((s.hostReset now).setMem (Memory.putBytes (s.hostReset now).mem Config.programBase bytes)).setRomLen bytes.length

/-- `dump()` (R42). -/
def State.snapshot (s : State) : Snapshot := { v := s.v, dt := s.dt, st := s.st, pc := s.pc, i := s.i }

/-- The result of a `load` or a `step` that left the state `s`: the fault it latched, else ok (60_exceptions.md R262). -/
def State.reply (s : State) : Reply :=
  match s.fault with
  | some record => .fault record
  | none => .ok

/-- `step(now)` as the host calls it: the state after, and ok or the fault. A step in a faulted state changes nothing and gives the
latched fault again (40_cycle.md R104). -/
def State.hostStep (s : State) (now : Nat) : Host.Outcome (State × Reply) Fault Refusal :=
  match step (s.setNow now) with
  | .next t => .next (t, t.reply)
  | .fault (.latched record) => .next (s.setNow now, .fault record)
  | .refused r => .refused r

/-- One call of the host (R37, R43). -/
def hostCall (c : HostCall) (s : State) : Host.Outcome (State × Reply) Fault Refusal :=
  match c with
  | .reset now => if now < s.now then .refused .timeWentBack else .next (s.hostReset now, .ok)
  | .load bytes now =>
    if now < s.now then .refused .timeWentBack else .next (s.hostLoad bytes now, (s.hostLoad bytes now).reply)
  | .step now => if now < s.now then .refused .timeWentBack else s.hostStep now
  | .setKeypad k pressed => .next (s.setKey k pressed, .ok)
  | .reportKeyPressed k => .next (s.setRkey k, .ok)
  | .display => .next (s, .cells s.disp)
  | .isRunning => .next (s, .flag s.running)
  | .dump => .next (s, .snapshot s.snapshot)

/-- A run: the calls of a host, in order (40_cycle.md R112). -/
def runCalls : List HostCall → State → Host.Outcome State Fault Refusal
  | [], s => .next s
  | c :: rest, s =>
    match hostCall c s with
    | .next (t, _) => runCalls rest t
    | .fault r => .fault r
    | .refused r => .refused r

end Sys2Proof.Machine
end

