-- ==== Sys2Proof/Safety.lean ====
section
/-! DEFINITION. The terms claims are stated in: the parts of the state and what a change leaves alone, the invariant of the block, how
a run ends (40_cycle.md R112), and the cells a sprite covers (43_display.md R200). -/

namespace Sys2Proof.Machine

/-- The parts of the state: every element of 10_state.md R21 to R35, memory byte by byte, the display cell by cell, the stack slot by
slot, and the model's own two fields. -/
inductive Part where
  | reg (r : Reg)
  | index
  | pc
  | slot (j : Fin 16)
  | depth
  | memByte (a : Nat)
  | cell (c : Fin 64) (r : Fin 32)
  | dt
  | st
  | key (k : Key)
  | wait
  | rkey
  | running
  | romLen
  | tLast
  | fault
  | now
  | draws
  deriving DecidableEq, Repr

/-- The part has the same value in both states. -/
def Part.Same (s t : State) : Part → Prop
  | .reg r => t.reg r = s.reg r
  | .index => t.i = s.i
  | .pc => t.pc = s.pc
  | .slot j => t.stack[j] = s.stack[j]
  | .depth => t.sp = s.sp
  | .memByte a => t.mem.byteAt a = s.mem.byteAt a
  | .cell c r => t.disp[c][r] = s.disp[c][r]
  | .dt => t.dt = s.dt
  | .st => t.st = s.st
  | .key k => t.keys[k] = s.keys[k]
  | .wait => t.wait = s.wait
  | .rkey => t.rkey = s.rkey
  | .running => t.running = s.running
  | .romLen => t.romLen = s.romLen
  | .tLast => t.tLast = s.tLast
  | .fault => t.fault = s.fault
  | .now => t.now = s.now
  | .draws => t.draws = s.draws

/-- Every part outside `may` has the same value in both states. -/
def ChangesWithin (may : Part → Prop) (s t : State) : Prop := ∀ p, ¬ may p → p.Same s t

/-- Every part outside the list has the same value in both states. -/
def ChangesOnly (ps : List Part) (s t : State) : Prop := ChangesWithin (· ∈ ps) s t

/-- pc, and the `n` bytes of memory from address `a`. -/
def StorePart (a n : Nat) : Part → Prop
  | .pc => True
  | .memByte b => a ≤ b ∧ b < a + n
  | _ => False

/-- pc, and the registers V0 .. Vx. -/
def LoadPart (x : Reg) : Part → Prop
  | .pc => True
  | .reg r => r ≤ x
  | _ => False

/-- pc, VF and the display. -/
def DrawPart : Part → Prop
  | .pc => True
  | .reg r => r = vf
  | .cell _ _ => True
  | _ => False

/-- pc and the display. -/
def ClearPart : Part → Prop
  | .pc => True
  | .cell _ _ => True
  | _ => False

/-- The rule of the instruction writes register `r`: its destination, VF where it sets a flag (41_arith_logic.md, 43_display.md R202,
44_timer_keypad.md R220), or V0 .. Vx (45_memory_index.md R245). -/
def writesReg (i : Instr) (r : Reg) : Prop :=
  match i with
  | .ldImm x _ | .addImm x _ | .ldReg x _ | .orReg x _ | .andReg x _ | .xorReg x _ | .rnd x _ | .ldVxDt x => r = x
  | .addReg x _ | .subReg x _ | .shr x _ | .subnReg x _ | .shl x _ => r = x ∨ r = vf
  | .drw _ _ _ => r = vf
  | .loadRegs x => r ≤ x
  | .nop | .cls | .ret | .jp _ | .call _ | .seImm _ _ | .sneImm _ _ | .seReg _ _ | .sneReg _ _ | .ldI _ | .jpV0 _ => False
  | .skp _ | .sknp _ | .ldVxK _ | .ldDtVx _ | .ldStVx _ | .addI _ | .ldF _ | .ldB _ | .storeRegs _ => False

/-- The instruction skips the next one if its condition holds (42_control_flow.md R173 to R178). -/
def conditionalSkip (i : Instr) : Prop :=
  (∃ x kk, i = .seImm x kk ∨ i = .sneImm x kk) ∨ (∃ x y, i = .seReg x y ∨ i = .sneReg x y) ∨ ∃ x, i = .skp x ∨ i = .sknp x

/-- The instruction puts an explicit target in pc (42_control_flow.md R171, R172, R179, R180). -/
def controlTransfer (i : Instr) : Prop :=
  i = .ret ∨ ∃ addr, i = .call addr ∨ i = .jp addr ∨ i = .jpV0 addr

/-- The table of 60_exceptions.md R264: the fault kinds the instruction can raise. -/
def canRaise (i : Instr) (k : FaultKind) : Prop :=
  match k with
  | .stackOverflow => ∃ addr, i = .call addr
  | .stackUnderflow => i = .ret
  | .jumpOutOfRange _ => ∃ addr, i = .jpV0 addr
  | .keyIndexOutOfRange _ => ∃ x, i = .skp x ∨ i = .sknp x
  | .indexOverflow _ => ∃ x, i = .addI x
  | .memoryOutOfBounds _ => (∃ x y n, i = .drw x y n) ∨ ∃ x, i = .ldB x ∨ i = .storeRegs x ∨ i = .loadRegs x
  | .fontRegionStore _ => ∃ x, i = .ldB x ∨ i = .storeRegs x
  | .invalidOpcode _ | .romTooLarge _ => False

/-- The info a fault kind carries is in the range R260 gives it. -/
def FaultKind.InfoInRange : FaultKind → Prop
  | .invalidOpcode w => WellFormed.word w = false
  | .stackOverflow => True
  | .stackUnderflow => True
  | .romTooLarge len => Config.maxRom < len
  | .memoryOutOfBounds a => 0xFFF < a
  | .fontRegionStore a => a ≤ 0x04F
  | .indexOverflow sum => 0xFFFF < sum
  | .keyIndexOutOfRange k => 0xF < k.toNat
  | .jumpOutOfRange t => 0xFFF < t

/-- The invariant of the block: what the spec says holds in every state of a run. -/
structure State.Inv (s : State) : Prop where
  /-- Memory is in its canonical form. -/
  memCanonical : s.mem.wf
  /-- 0x000 .. 0x04F hold the font (20_memory.md R61, 90_conflicts.md C7). -/
  fontIntact : ∀ a, a < 0x50 → s.mem.byteAt a = Config.font.getD a 0
  /-- The largest pc any rule writes is 4097 (10_state.md R24). -/
  pcBound : s.pc.toNat ≤ 4097
  /-- Return addresses are at most 4095 (R24). -/
  stackBound : ∀ j : Fin 16, s.stack[j].toNat ≤ 4095
  /-- `rom_len` is in 0..3584 (R33). -/
  romLenBound : s.romLen ≤ 3584
  /-- The timestamp is not ahead of the host's clock (R34, R43(b)). -/
  clock : s.tLast ≤ s.now
  /-- While a key wait is pending, pc is at a fetchable instruction, the block runs and no fault is latched (40_cycle.md R105). -/
  waitState : s.wait ≠ none → s.pc.toNat < 4094 ∧ s.running = true ∧ s.fault = none
  /-- A faulted block was running (60_exceptions.md R261: `running` is not changed). -/
  faultRunning : s.fault ≠ none → s.running = true
  /-- A latched record holds an info in its range and the pc of a fetchable instruction (R260, R261). -/
  faultRecord : ∀ f, s.fault = some f → f.kind.InfoInRange ∧ f.pc.toNat < 4094

/-- The run ended normally (40_cycle.md R112). -/
def State.EndedNormally (s : State) : Prop := s.running = false ∧ s.fault = none

/-- The run ended badly (R112). -/
def State.EndedBadly (s : State) : Prop := s.fault ≠ none

/-- The run has not ended: it executes, or waits for a key (R112). -/
def State.Live (s : State) : Prop := s.running = true ∧ s.fault = none

/-- The next step fetches an instruction: the run is live, no key wait is pending and the termination check does not hold. -/
def State.Fetches (s : State) : Prop :=
  s.fault = none ∧ s.running = true ∧ s.wait = none ∧ s.pc.toNat < 4094 ∧ s.pc.toNat < 0x200 + s.romLen

/-- The state in which the instruction of a step executes: after the timer sub-step (44_timer_keypad.md R224). -/
def State.ticked (s : State) : State := timerSubStep Config.timerPeriod s.now s

/-- The word in memory at pc, big-endian (20_memory.md R64). -/
def State.wordAtPc (s : State) : Word :=
  BitVec.ofNat 16 ((s.mem.byteAt s.pc.toNat).toNat * 256 + (s.mem.byteAt (s.pc.toNat + 1)).toNat)

/-- The sprite of `DRW Vx, Vy, n` has a 1 bit at cell (c, r): bit 7 - (c - Vx) of byte r - Vy at I (43_display.md R200). -/
def spriteCovers (s : State) (x y : Reg) (n : Nat) (c : Fin 64) (r : Fin 32) : Prop :=
  (s.reg x).toNat ≤ c.val ∧ c.val < (s.reg x).toNat + 8 ∧ (s.reg y).toNat ≤ r.val ∧ r.val < (s.reg y).toNat + n ∧
    (s.mem.byteAt (s.i.toNat + (r.val - (s.reg y).toNat))).getLsbD (7 - (c.val - (s.reg x).toNat)) = true

end Sys2Proof.Machine
end

