-- ==== Sys2Proof/Certificates/Slice0/Obligations.lean ====
section
/-! DEFINITION. The statements for the provers, from the numbered rules of spec/: encoding, the step cycle, whole-machine rules, the
host interface, and every instruction's result, frame and faults. -/

open Sys2Proof Sys2Proof.Machine

/-! ### The shapes the statements share -/

/-- The word `w`, written out by its bit fields, is the encoding of `i` (30_encoding.md R82, R85). -/
def Encodes (w : Nat) (i : Instr) : Prop := decodeWord (BitVec.ofNat 16 w) = some i

/-- `i` raises `k` in `s`: the record holds the pc of the instruction, and nothing else is written (60_exceptions.md R261). -/
def Raises (i : Instr) (s : State) (k : FaultKind) : Prop :=
  ∃ t, exec i s = .next t ∧ t.fault = some ⟨k, s.pc⟩ ∧ ChangesOnly [.fault] s t

/-- A store to address `a` fails (20_memory.md R63). -/
def StoreFails (a : Nat) : Prop := a < 0x50 ∨ 0xFFF < a

/-- The fault of a failing store (R63). -/
def storeFault (a : Nat) : FaultKind := if 0xFFF < a then .memoryOutOfBounds a else .fontRegionStore a

/-! ### Encoding -/

/-- Decoding an encoded instruction gives it back, as a word and as bytes followed by anything (R80, R84, R85, R90). -/
def Obligations.DecodeEncodeRoundTrip : Prop :=
  (∀ i : Instr, decodeWord (encode i) = some i) ∧
  ∀ (i : Instr) (rest : List Byte), decode (encodeBytes i ++ rest) = .ok (i, rest)

/-- The decoder accepts exactly the words that R87's table does not list as invalid. -/
def Obligations.DecoderAcceptsExactlyValidWords : Prop :=
  ∀ w : Word, (decodeWord w).isSome = WellFormed.word w

/-- A word that decodes is the word of the instruction it decodes to: no bit is dropped. -/
def Obligations.DecodedWordReencodes : Prop :=
  ∀ (w : Word) (i : Instr), decodeWord w = some i → encode i = w

/-- Words of the spec's own examples, one or more of each family, decode to the instructions they stand for. -/
def Obligations.SampleWordsDecode : Prop :=
  decodeWord 0x0000 = some .nop ∧ decodeWord 0x00E0 = some .cls ∧ decodeWord 0x00EE = some .ret ∧
  decodeWord 0x2300 = some (.call 0x300) ∧ decodeWord 0x6005 = some (.ldImm 0 0x05) ∧
  decodeWord 0x8014 = some (.addReg 0 1) ∧ decodeWord 0xD011 = some (.drw 0 1 1) ∧
  decodeWord 0xE19E = some (.skp 1) ∧ decodeWord 0xF50A = some (.ldVxK 5) ∧ decodeWord 0xFA33 = some (.ldB 0xA) ∧
  decodeWord 0x0123 = none ∧ decodeWord 0x5011 = none ∧ decodeWord 0x800F = none ∧ decodeWord 0xF075 = none

/-! ### The step cycle -/

/-- Dispatch (R111): a step that fetches runs exactly the instruction its word decodes to, in the state after the timer sub-step; a word
that decodes to nothing raises InvalidOpcode and writes only the fault record. -/
def Obligations.StepRunsDecodedInstruction : Prop :=
  ∀ s : State, s.Fetches →
    (∀ i, decodeWord s.wordAtPc = some i → step s = exec i s.ticked) ∧
    (decodeWord s.wordAtPc = none →
      ∃ t, step s = .next t ∧ t.fault = some ⟨.invalidOpcode s.wordAtPc, s.pc⟩ ∧ ChangesOnly [.fault] s.ticked t)

/-- Fetch (R108): below 4094 both reads are in bounds and give the two bytes at pc, the first as the high byte. -/
def Obligations.FetchReadsBigEndianAndNeverFaults : Prop :=
  ∀ s : State, s.pc.toNat < 4094 →
    ∃ w, fetchWord s = .ok w ∧
      w.toNat = (s.mem.byteAt s.pc.toNat).toNat * 256 + (s.mem.byteAt (s.pc.toNat + 1)).toNat

/-- Halted and faulted steps (R104): they change nothing, a faulted one returns the latched fault, and no call but `reset` and `load`
leaves either state. -/
def Obligations.HaltedAndFaultedStepsChangeNothing : Prop :=
  (∀ (s : State) (f : FaultRecord), s.fault = some f → step s = .fault (.latched f)) ∧
  (∀ s : State, s.EndedNormally → step s = .next s) ∧
  ∀ (c : HostCall) (s t : State) (r : Reply), (∀ now, c ≠ .reset now) → (∀ bytes now, c ≠ .load bytes now) →
    hostCall c s = .next (t, r) → (s.EndedBadly → t.fault = s.fault) ∧ (s.EndedNormally → t.EndedNormally)

/-- The timer sub-step (R102, R103): with a period of at least one unit, each timer falls by one, never below 0, exactly when a period has
passed, and `t_last` becomes `now`; every live step is the step of the state after its sub-step, so the sub-step comes first and happens
once (R224), and both draw the same byte where they run `RND` (log 4, R113). The host time is the state's `now` (log 2) and the period at
least one unit (log 3). -/
def Obligations.TimersTickOncePerPeriod : Prop :=
  (∀ (period now : Nat) (s : State), 0 < period →
    (s.tLast + period ≤ now →
      (timerSubStep period now s).dt.toNat = s.dt.toNat - 1 ∧ (timerSubStep period now s).st.toNat = s.st.toNat - 1 ∧
      (timerSubStep period now s).tLast = now ∧ ChangesOnly [.dt, .st, .tLast] s (timerSubStep period now s)) ∧
    (now < s.tLast + period → timerSubStep period now s = s)) ∧
  ∀ s : State, s.Live → step s = step s.ticked

/-- Timers never wrap (R103): the sub-step leaves a timer at 0 at 0, where it changes a timer it takes exactly 1 from it, and only
`LD DT, Vx` and `LD ST, Vx` raise a timer. -/
def Obligations.OnlyTimerLoadsRaiseTimers : Prop :=
  (∀ (period now : Nat) (s : State),
    (s.dt = 0 → (timerSubStep period now s).dt = 0) ∧ (s.st = 0 → (timerSubStep period now s).st = 0) ∧
    ((timerSubStep period now s).dt ≠ s.dt → (timerSubStep period now s).dt.toNat + 1 = s.dt.toNat) ∧
    ((timerSubStep period now s).st ≠ s.st → (timerSubStep period now s).st.toNat + 1 = s.st.toNat)) ∧
  ∀ s t : State, step s = .next t →
    (s.dt.toNat < t.dt.toNat → s.Fetches ∧ ∃ x, decodeWord s.wordAtPc = some (.ldDtVx x)) ∧
    (s.st.toNat < t.st.toNat → s.Fetches ∧ ∃ x, decodeWord s.wordAtPc = some (.ldStVx x))

/-- Suspension (R105): a waiting step raises no fault and, with no key reported, does only the timer sub-step, so pc stays; a wait begins
only by `LD Vx, K` and ends only by a resolution. -/
def Obligations.KeyWaitSuspendsDispatch : Prop :=
  (∀ (s : State) (r : Reg), s.Live → s.wait = some r →
    (∃ t, step s = .next t ∧ t.fault = none ∧ t.running = true) ∧ (s.rkey = none → step s = .next s.ticked)) ∧
  ∀ s t : State, step s = .next t → t.wait ≠ s.wait →
    (s.wait = none ∧ s.Fetches ∧ ∃ x, decodeWord s.wordAtPc = some (.ldVxK x) ∧ t.wait = some x) ∨
    (s.wait ≠ none ∧ s.rkey ≠ none ∧ t.wait = none)

/-- Resolution (R106): the reported key goes to the pending register, the wait and the report are cleared, pc advances by 2, and no
instruction runs; with no key reported, whatever keys are held, the step ends after the timer sub-step. -/
def Obligations.ReportedKeyResolvesWait : Prop :=
  ∀ (s : State) (r : Reg), s.Live → s.wait = some r →
    (∀ k : Key, s.rkey = some k →
      ∃ t, step s = .next t ∧ (t.reg r).toNat = k.val ∧ t.wait = none ∧ t.rkey = none ∧ t.pc = s.pc + 2 ∧
        ChangesOnly [.reg r, .wait, .rkey, .pc] s.ticked t) ∧
    (s.rkey = none → step s = .next s.ticked)

/-- A reported key stays until a wait resolution consumes it, and one reported before `LD Vx, K` resolves its wait at the following step
(R31, R223, R299). -/
def Obligations.StaleKeyResolvesNextWait : Prop :=
  (∀ s t : State, step s = .next t → t.rkey ≠ s.rkey → s.wait ≠ none ∧ t.wait = none ∧ t.rkey = none) ∧
  ∀ (s : State) (x : Reg) (k : Key), s.Fetches → decodeWord s.wordAtPc = some (.ldVxK x) → s.rkey = some k →
    ∃ t u, step s = .next t ∧ t.wait = some x ∧ t.rkey = some k ∧ t.pc = s.pc ∧
      step t = .next u ∧ (u.reg x).toNat = k.val ∧ u.wait = none ∧ u.rkey = none ∧ u.pc = s.pc + 2

/-- Termination (R107): a live step with no pending wait ends the run, executing nothing, exactly when pc is at or above 4094 or at or
past the end of the ROM. -/
def Obligations.TerminationCheckEndsRun : Prop :=
  ∀ s : State, s.Live → s.wait = none →
    (4094 ≤ s.pc.toNat ∨ 0x200 + s.romLen ≤ s.pc.toNat →
      ∃ t, step s = .next t ∧ t.EndedNormally ∧ ChangesOnly [.running] s.ticked t) ∧
    (s.pc.toNat < 4094 → s.pc.toNat < 0x200 + s.romLen → ∃ t, step s = .next t ∧ t.running = true)

/-! ### Whole-machine rules -/

/-- A step answers a next state, except in a faulted state, where it answers the latched fault: nothing is refused. -/
def Obligations.StepAnswersUnlessFaulted : Prop :=
  ∀ s : State, (s.fault = none → ∃ t, step s = .next t) ∧ ∀ f, s.fault = some f → step s = .fault (.latched f)

/-- Faults are precise and sticky (R261): the record holds the pc of the faulting instruction and an info in its range, everything else is
as after the step's timer sub-step, the host gets the record, and every later step returns the same fault. -/
def Obligations.FaultsArePreciseAndSticky : Prop :=
  ∀ (s t : State) (f : FaultRecord), s.fault = none → step s = .next t → t.fault = some f →
    f.pc = s.pc ∧ f.kind.InfoInRange ∧ ChangesOnly [.fault] s.ticked t ∧
      hostCall (.step s.now) s = .next (t, .fault f) ∧ step t = .fault (.latched f)

/-- What an instruction can write, by element: V and VF only as its rule says (`writesReg`), memory only by `LD B` and `LD [I], Vx`, the
display only by `CLS` and `DRW`, the stack only by `CALL` and `RET`, I only by its three loads, DT and ST only by their loads, `wait` only by
`LD Vx, K`; pc by 4 only in a skip, to a target only in a transfer, never by `LD Vx, K` and never where a fault is raised (40_cycle.md R109);
the fault record only by the instructions and with the kinds of R264's table (`canRaise`); nothing of the keypad, the reported key, the run
flag, the ROM length or the timestamp; and of the model's own fields (logs 2 and 4) the draw count only by `RND`, the host time by none. -/
def Obligations.ElementsHaveTheirWritersOnly : Prop :=
  ∀ (i : Instr) (s t : State), exec i s = .next t →
    (∀ r : Reg, t.reg r ≠ s.reg r → writesReg i r) ∧
    ((∃ a, t.mem.byteAt a ≠ s.mem.byteAt a) → ∃ x, i = .ldB x ∨ i = .storeRegs x) ∧
    (t.disp ≠ s.disp → i = .cls ∨ ∃ x y n, i = .drw x y n) ∧
    (t.stack ≠ s.stack ∨ t.sp ≠ s.sp → i = .ret ∨ ∃ addr, i = .call addr) ∧
    (t.i ≠ s.i → (∃ addr, i = .ldI addr) ∨ ∃ x, i = .addI x ∨ i = .ldF x) ∧
    (t.dt ≠ s.dt → ∃ x, i = .ldDtVx x) ∧ (t.st ≠ s.st → ∃ x, i = .ldStVx x) ∧
    (t.wait ≠ s.wait → ∃ x, i = .ldVxK x) ∧
    (t.pc ≠ s.pc → (∀ x, i ≠ .ldVxK x) ∧ t.fault = s.fault ∧
      (t.pc = s.pc + 2 ∨ t.pc = s.pc + 4 ∧ conditionalSkip i ∨ controlTransfer i)) ∧
    (t.fault ≠ s.fault → ∃ k, t.fault = some ⟨k, s.pc⟩ ∧ canRaise i k) ∧
    t.keys = s.keys ∧ t.rkey = s.rkey ∧ t.running = s.running ∧ t.romLen = s.romLen ∧ t.tLast = s.tLast ∧
    t.now = s.now ∧ (t.draws ≠ s.draws → ∃ x kk, i = .rnd x kk)

/-- No instruction reads ST (R28): two states that differ in ST alone step to states that differ in ST alone. Both steps draw the same byte
where they run `RND`: a step is a function of the state, the time and the bytes drawn (40_cycle.md R113), and the model's draws depend on the
draw count alone, which is the same in both (log 4, DESIGN CHOICE). -/
def Obligations.SoundTimerIsNeverRead : Prop :=
  ∀ (s t : State) (b : Byte), step s = .next t →
    ∃ u, step (s.setSt b) = .next u ∧ ChangesOnly [.st] t u

/-- No step changes a byte of the font region (R61, R63). -/
def Obligations.StepsNeverChangeTheFont : Prop :=
  ∀ s t : State, step s = .next t → ∀ a, a < 0x50 → t.mem.byteAt a = s.mem.byteAt a

/-- The invariant holds after reset, at whatever time the host resets. -/
def Obligations.InvariantHoldsAtReset : Prop :=
  State.reset.Inv ∧ ∀ now, (State.resetAt now).Inv

/-- Every step keeps the invariant, from every state that meets it. -/
def Obligations.StepKeepsInvariant : Prop :=
  ∀ s t : State, s.Inv → step s = .next t → t.Inv

/-- Every run keeps the invariant, whatever calls the host makes and at whatever times. -/
def Obligations.HostRunsKeepInvariant : Prop :=
  ∀ (calls : List HostCall) (s t : State), s.Inv → runCalls calls s = .next t → t.Inv

/-! ### The host interface -/

/-- `reset(now)` (R290): every element at its reset value (R44). -/
def Obligations.ResetSetsEveryElement : Prop :=
  ∀ (s : State) (now : Nat), s.now ≤ now →
    ∃ t, hostCall (.reset now) s = .next (t, .ok) ∧
      (∀ a, a < 0x50 → t.mem.byteAt a = Config.font.getD a 0) ∧ (∀ a, 0x50 ≤ a → a < 0x1000 → t.mem.byteAt a = 0) ∧
      (∀ r : Reg, t.reg r = 0) ∧ (∀ j : Fin 16, t.stack[j] = 0) ∧ (∀ k : Key, t.keys[k] = false) ∧
      t.i = 0 ∧ t.pc = 0x200 ∧ t.sp = 0 ∧ (∀ (c : Fin 64) (r : Fin 32), t.disp[c][r] = false) ∧
      t.dt = 0 ∧ t.st = 0 ∧ t.wait = none ∧ t.rkey = none ∧ t.running = true ∧ t.romLen = 0 ∧ t.tLast = now ∧
      t.fault = none

/-- `load(bytes, now)` (R291): the reset state with the ROM at 0x200 and its length recorded. -/
def Obligations.LoadCopiesRomAfterReset : Prop :=
  ∀ (s : State) (bytes : List Byte) (now : Nat), s.now ≤ now → bytes.length ≤ 3584 →
    ∃ t u, hostCall (.reset now) s = .next (u, .ok) ∧ hostCall (.load bytes now) s = .next (t, .ok) ∧
      (∀ k, k < bytes.length → t.mem.byteAt (0x200 + k) = bytes.getD k 0) ∧ t.romLen = bytes.length ∧
      ∀ p : Part, p ≠ .romLen → (∀ k, k < bytes.length → p ≠ .memByte (0x200 + k)) → p.Same u t

/-- Oversized ROM (R292): the reset state with RomTooLarge latched, nothing copied, `rom_len` 0, and every step returns the fault. -/
def Obligations.OversizedRomLatchesFault : Prop :=
  ∀ (s : State) (bytes : List Byte) (now : Nat), s.now ≤ now → 3584 < bytes.length →
    ∃ t u, hostCall (.reset now) s = .next (u, .ok) ∧
      hostCall (.load bytes now) s = .next (t, .fault ⟨.romTooLarge bytes.length, 0x200⟩) ∧
      t.fault = some ⟨.romTooLarge bytes.length, 0x200⟩ ∧ t.romLen = 0 ∧ ChangesOnly [.fault] u t ∧
      step t = .fault (.latched ⟨.romTooLarge bytes.length, 0x200⟩)

/-- Entry (R295): the first step after a load fetches the word at 0x200, which is the ROM's first two bytes; of an empty ROM it ends the
run (R294, R107). -/
def Obligations.FirstStepAfterLoadFetchesRom : Prop :=
  ∀ (s : State) (bytes : List Byte) (now : Nat), s.now ≤ now → bytes.length ≤ 3584 →
    ∃ t, hostCall (.load bytes now) s = .next (t, .ok) ∧ t.pc = 0x200 ∧
      (bytes ≠ [] → t.Fetches ∧ t.wordAtPc.toNat = (bytes.getD 0 0).toNat * 256 + (bytes.getD 1 0).toNat) ∧
      (bytes = [] → ∃ u, step t = .next u ∧ u.EndedNormally ∧ ChangesOnly [.running] t.ticked u)

/-- The inputs (R38, R39): each writes its one element, in every state, the faulted and the halted ones too. -/
def Obligations.InputCallsWriteOneElement : Prop :=
  (∀ (s : State) (k : Key) (p : Bool),
    ∃ t, hostCall (.setKeypad k p) s = .next (t, .ok) ∧ t.keys[k] = p ∧ ChangesOnly [.key k] s t) ∧
  ∀ (s : State) (k : Option Key),
    ∃ t, hostCall (.reportKeyPressed k) s = .next (t, .ok) ∧ t.rkey = k ∧ ChangesOnly [.rkey] s t

/-- The accessors (R40, R41, R42): they give copies of the display, of the run flag and of V, DT, ST, pc and I, and change nothing. -/
def Obligations.AccessorsReadAndChangeNothing : Prop :=
  ∀ s : State,
    (∃ d, hostCall .display s = .next (s, .cells d) ∧ ∀ (c : Fin 64) (r : Fin 32), d[c][r] = s.disp[c][r]) ∧
    hostCall .isRunning s = .next (s, .flag s.running) ∧
    ∃ d, hostCall .dump s = .next (s, .snapshot d) ∧ (∀ r : Reg, d.v[r] = s.reg r) ∧ d.dt = s.dt ∧ d.st = s.st ∧
      d.pc = s.pc ∧ d.i = s.i

/-- What `step` gives back (R262): ok, or the fault the step latched, or, in a faulted state, the latched fault again. -/
def Obligations.HostStepReportsFaults : Prop :=
  ∀ (s : State) (now : Nat), s.now ≤ now →
    (s.fault = none → ∃ t, step (s.setNow now) = .next t ∧
      (t.fault = none → hostCall (.step now) s = .next (t, .ok)) ∧
      ∀ f, t.fault = some f → hostCall (.step now) s = .next (t, .fault f)) ∧
    ∀ f, s.fault = some f → ∃ t, hostCall (.step now) s = .next (t, .fault f) ∧ ChangesOnly [.now] s t

/-! ### 40_cycle.md and 42_control_flow.md -/

/-- NOP (R110). -/
def Obligations.NopOnlyAdvances : Prop :=
  Encodes 0x0000 .nop ∧ ∀ s : State, ∃ t, exec .nop s = .next t ∧ t.pc = s.pc + 2 ∧ ChangesOnly [.pc] s t

/-- JP addr (R179). -/
def Obligations.JumpGoesToAddress : Prop :=
  ∀ (addr : Addr12) (s : State), Encodes (0x1000 + addr.toNat) (.jp addr) ∧
    ∃ t, exec (.jp addr) s = .next t ∧ t.pc.toNat = addr.toNat ∧ ChangesOnly [.pc] s t

/-- CALL addr (R171). -/
def Obligations.CallPushesReturnAddress : Prop :=
  ∀ (addr : Addr12) (s : State), Encodes (0x2000 + addr.toNat) (.call addr) ∧
    (∀ h : s.sp.val < 16, ∃ t, exec (.call addr) s = .next t ∧ t.stack[s.sp.val] = s.pc + 2 ∧
      t.sp.val = s.sp.val + 1 ∧ t.pc.toNat = addr.toNat ∧ ChangesOnly [.slot ⟨s.sp.val, h⟩, .depth, .pc] s t) ∧
    (s.sp.val = 16 → Raises (.call addr) s .stackOverflow)

/-- RET (R172). -/
def Obligations.ReturnPopsAddress : Prop :=
  Encodes 0x00EE .ret ∧ ∀ s : State,
    (∀ h : 0 < s.sp.val, ∃ t, exec .ret s = .next t ∧ t.sp.val = s.sp.val - 1 ∧ t.pc = s.stack[s.sp.val - 1] ∧
      ChangesOnly [.depth, .pc] s t) ∧
    (s.sp.val = 0 → Raises .ret s .stackUnderflow)

/-- A call and then a return leave pc at the instruction after the call and the depth as before (R170, R171, R172). -/
def Obligations.CallThenReturnComesBack : Prop :=
  ∀ (addr : Addr12) (s : State) (h : s.sp.val < 16),
    ∃ t u, exec (.call addr) s = .next t ∧ exec .ret t = .next u ∧ u.pc = s.pc + 2 ∧ u.sp = s.sp ∧
      ChangesOnly [.slot ⟨s.sp.val, h⟩, .pc] s u

/-- SE Vx, kk and SNE Vx, kk (R173, R174). -/
def Obligations.ImmediateSkips : Prop :=
  ∀ (x : Reg) (kk : Byte) (s : State),
    (Encodes (0x3000 + x.val * 0x100 + kk.toNat) (.seImm x kk) ∧
      ∃ t, exec (.seImm x kk) s = .next t ∧ (s.reg x = kk → t.pc = s.pc + 4) ∧ (s.reg x ≠ kk → t.pc = s.pc + 2) ∧
        ChangesOnly [.pc] s t) ∧
    (Encodes (0x4000 + x.val * 0x100 + kk.toNat) (.sneImm x kk) ∧
      ∃ t, exec (.sneImm x kk) s = .next t ∧ (s.reg x ≠ kk → t.pc = s.pc + 4) ∧ (s.reg x = kk → t.pc = s.pc + 2) ∧
        ChangesOnly [.pc] s t)

/-- SE Vx, Vy and SNE Vx, Vy (R175, R176); the words with n != 0 are invalid. -/
def Obligations.RegisterSkips : Prop :=
  ∀ (x y : Reg) (s : State),
    (Encodes (0x5000 + x.val * 0x100 + y.val * 0x10) (.seReg x y) ∧
      ∃ t, exec (.seReg x y) s = .next t ∧ (s.reg x = s.reg y → t.pc = s.pc + 4) ∧
        (s.reg x ≠ s.reg y → t.pc = s.pc + 2) ∧ ChangesOnly [.pc] s t) ∧
    (Encodes (0x9000 + x.val * 0x100 + y.val * 0x10) (.sneReg x y) ∧
      ∃ t, exec (.sneReg x y) s = .next t ∧ (s.reg x ≠ s.reg y → t.pc = s.pc + 4) ∧
        (s.reg x = s.reg y → t.pc = s.pc + 2) ∧ ChangesOnly [.pc] s t) ∧
    ∀ n : Fin 16, n ≠ 0 →
      decodeWord (BitVec.ofNat 16 (0x5000 + x.val * 0x100 + y.val * 0x10 + n.val)) = none ∧
      decodeWord (BitVec.ofNat 16 (0x9000 + x.val * 0x100 + y.val * 0x10 + n.val)) = none

/-- SKP Vx and SKNP Vx (R177, R178): the level of key V[x] decides; a value above 0xF is no key and faults. -/
def Obligations.KeySkips : Prop :=
  ∀ (x : Reg) (s : State),
    Encodes (0xE09E + x.val * 0x100) (.skp x) ∧ Encodes (0xE0A1 + x.val * 0x100) (.sknp x) ∧
    (∀ h : (s.reg x).toNat < 16,
      (∃ t, exec (.skp x) s = .next t ∧ t.pc = (if s.keys[(s.reg x).toNat] then s.pc + 4 else s.pc + 2) ∧
        ChangesOnly [.pc] s t) ∧
      (∃ t, exec (.sknp x) s = .next t ∧ t.pc = (if s.keys[(s.reg x).toNat] then s.pc + 2 else s.pc + 4) ∧
        ChangesOnly [.pc] s t)) ∧
    (16 ≤ (s.reg x).toNat → Raises (.skp x) s (.keyIndexOutOfRange (s.reg x)) ∧
      Raises (.sknp x) s (.keyIndexOutOfRange (s.reg x)))

/-- JP V0, addr (R180). -/
def Obligations.JumpPlusV0 : Prop :=
  ∀ (addr : Addr12) (s : State), Encodes (0xB000 + addr.toNat) (.jpV0 addr) ∧
    (addr.toNat + (s.reg 0).toNat ≤ 0xFFF →
      ∃ t, exec (.jpV0 addr) s = .next t ∧ t.pc.toNat = addr.toNat + (s.reg 0).toNat ∧ ChangesOnly [.pc] s t) ∧
    (0xFFF < addr.toNat + (s.reg 0).toNat →
      Raises (.jpV0 addr) s (.jumpOutOfRange (addr.toNat + (s.reg 0).toNat)))

/-! ### 41_arith_logic.md -/

/-- LD Vx, kk and LD Vx, Vy (R135, R137). -/
def Obligations.LoadImmediateAndCopy : Prop :=
  (∀ (x : Reg) (kk : Byte) (s : State), Encodes (0x6000 + x.val * 0x100 + kk.toNat) (.ldImm x kk) ∧
    ∃ t, exec (.ldImm x kk) s = .next t ∧ t.reg x = kk ∧ t.pc = s.pc + 2 ∧ ChangesOnly [.reg x, .pc] s t) ∧
  ∀ (x y : Reg) (s : State), Encodes (0x8000 + x.val * 0x100 + y.val * 0x10) (.ldReg x y) ∧
    ∃ t, exec (.ldReg x y) s = .next t ∧ t.reg x = s.reg y ∧ t.pc = s.pc + 2 ∧ ChangesOnly [.reg x, .pc] s t

/-- ADD Vx, kk (R136): the sum wraps and VF is no flag of it. -/
def Obligations.AddImmediateWrapsWithoutFlag : Prop :=
  ∀ (x : Reg) (kk : Byte) (s : State), Encodes (0x7000 + x.val * 0x100 + kk.toNat) (.addImm x kk) ∧
    ∃ t, exec (.addImm x kk) s = .next t ∧ (t.reg x).toNat = ((s.reg x).toNat + kk.toNat) % 256 ∧ t.pc = s.pc + 2 ∧
      ChangesOnly [.reg x, .pc] s t

/-- OR, AND, XOR (R138, R139, R140): bit by bit, and VF is not written. -/
def Obligations.LogicOperationsBitwise : Prop :=
  ∀ (x y : Reg) (s : State),
    (Encodes (0x8001 + x.val * 0x100 + y.val * 0x10) (.orReg x y) ∧
      ∃ t, exec (.orReg x y) s = .next t ∧
        (∀ b, (t.reg x).getLsbD b = ((s.reg x).getLsbD b || (s.reg y).getLsbD b)) ∧ t.pc = s.pc + 2 ∧
        ChangesOnly [.reg x, .pc] s t) ∧
    (Encodes (0x8002 + x.val * 0x100 + y.val * 0x10) (.andReg x y) ∧
      ∃ t, exec (.andReg x y) s = .next t ∧
        (∀ b, (t.reg x).getLsbD b = ((s.reg x).getLsbD b && (s.reg y).getLsbD b)) ∧ t.pc = s.pc + 2 ∧
        ChangesOnly [.reg x, .pc] s t) ∧
    (Encodes (0x8003 + x.val * 0x100 + y.val * 0x10) (.xorReg x y) ∧
      ∃ t, exec (.xorReg x y) s = .next t ∧
        (∀ b, (t.reg x).getLsbD b = ((s.reg x).getLsbD b != (s.reg y).getLsbD b)) ∧ t.pc = s.pc + 2 ∧
        ChangesOnly [.reg x, .pc] s t)

/-- ADD Vx, Vy (R141, R131): the sum modulo 256 and the carry; with x = 0xF the carry is what VF holds. -/
def Obligations.AddSetsCarry : Prop :=
  ∀ (x y : Reg) (s : State), Encodes (0x8004 + x.val * 0x100 + y.val * 0x10) (.addReg x y) ∧
    ∃ t, exec (.addReg x y) s = .next t ∧
      (x ≠ vf → (t.reg x).toNat = ((s.reg x).toNat + (s.reg y).toNat) % 256) ∧
      (t.reg vf).toNat = (if 255 < (s.reg x).toNat + (s.reg y).toNat then 1 else 0) ∧ t.pc = s.pc + 2 ∧
      ChangesOnly [.reg x, .reg vf, .pc] s t

/-- SUB Vx, Vy and SUBN Vx, Vy (R142, R144, R132): the difference modulo 256, VF = 1 when no borrow occurs. -/
def Obligations.SubtractsSetNoBorrow : Prop :=
  ∀ (x y : Reg) (s : State),
    (Encodes (0x8005 + x.val * 0x100 + y.val * 0x10) (.subReg x y) ∧
      ∃ t, exec (.subReg x y) s = .next t ∧
        (x ≠ vf → (t.reg x).toNat = ((s.reg x).toNat + 256 - (s.reg y).toNat) % 256) ∧
        (t.reg vf).toNat = (if (s.reg y).toNat ≤ (s.reg x).toNat then 1 else 0) ∧ t.pc = s.pc + 2 ∧
        ChangesOnly [.reg x, .reg vf, .pc] s t) ∧
    (Encodes (0x8007 + x.val * 0x100 + y.val * 0x10) (.subnReg x y) ∧
      ∃ t, exec (.subnReg x y) s = .next t ∧
        (x ≠ vf → (t.reg x).toNat = ((s.reg y).toNat + 256 - (s.reg x).toNat) % 256) ∧
        (t.reg vf).toNat = (if (s.reg x).toNat ≤ (s.reg y).toNat then 1 else 0) ∧ t.pc = s.pc + 2 ∧
        ChangesOnly [.reg x, .reg vf, .pc] s t)

/-- SHR Vx and SHL Vx (R143, R145, R133): one place, the bit shifted out to VF, whatever the y field holds. -/
def Obligations.ShiftsSetBitShiftedOut : Prop :=
  ∀ (x y : Reg) (s : State),
    (Encodes (0x8006 + x.val * 0x100 + y.val * 0x10) (.shr x y) ∧
      ∃ t, exec (.shr x y) s = .next t ∧ (x ≠ vf → (t.reg x).toNat = (s.reg x).toNat / 2) ∧
        (t.reg vf).toNat = (s.reg x).toNat % 2 ∧ t.pc = s.pc + 2 ∧ ChangesOnly [.reg x, .reg vf, .pc] s t) ∧
    (Encodes (0x800E + x.val * 0x100 + y.val * 0x10) (.shl x y) ∧
      ∃ t, exec (.shl x y) s = .next t ∧ (x ≠ vf → (t.reg x).toNat = (s.reg x).toNat * 2 % 256) ∧
        (t.reg vf).toNat = (s.reg x).toNat / 128 ∧ t.pc = s.pc + 2 ∧ ChangesOnly [.reg x, .reg vf, .pc] s t)

/-- RND Vx, kk (R146): the free byte of this draw, masked; the draw counter is the model's own (log 4). -/
def Obligations.RandomByteIsMasked : Prop :=
  ∀ (x : Reg) (kk : Byte) (s : State), Encodes (0xC000 + x.val * 0x100 + kk.toNat) (.rnd x kk) ∧
    ∃ t, exec (.rnd x kk) s = .next t ∧ t.reg x = Config.randomByte s.draws &&& kk ∧ (kk = 0 → t.reg x = 0) ∧
      t.draws = s.draws + 1 ∧ t.pc = s.pc + 2 ∧ ChangesOnly [.reg x, .draws, .pc] s t

/-! ### 43_display.md -/

/-- CLS (R201). -/
def Obligations.ClearDisplayBlanksEveryCell : Prop :=
  Encodes 0x00E0 .cls ∧ ∀ s : State,
    ∃ t, exec .cls s = .next t ∧ (∀ (c : Fin 64) (r : Fin 32), t.disp[c][r] = false) ∧ t.pc = s.pc + 2 ∧
      ChangesWithin ClearPart s t

/-- DRW Vx, Vy, n (R202, with R200, R203 and R204): exactly the cells under a 1 bit toggle, bits off the display are dropped (DRAW_WRAP at
its default, clip: log 8), VF is 1 exactly when a lit cell was under a 1 bit; a sprite that leaves memory faults at its first address above
0xFFF. -/
def Obligations.DrawTogglesExactlyCoveredCells : Prop :=
  ∀ (x y : Reg) (n : Fin 16) (s : State),
    Encodes (0xD000 + x.val * 0x100 + y.val * 0x10 + n.val) (.drw x y n) ∧
    ((∀ k, k < n.val → s.i.toNat + k ≤ 0xFFF) →
      ∃ t, exec (.drw x y n) s = .next t ∧
        (∀ (c : Fin 64) (r : Fin 32), spriteCovers s x y n.val c r → t.disp[c][r] = !s.disp[c][r]) ∧
        (∀ (c : Fin 64) (r : Fin 32), ¬ spriteCovers s x y n.val c r → t.disp[c][r] = s.disp[c][r]) ∧
        ((∃ (c : Fin 64) (r : Fin 32), spriteCovers s x y n.val c r ∧ s.disp[c][r] = true) → t.reg vf = 1) ∧
        ((∀ (c : Fin 64) (r : Fin 32), spriteCovers s x y n.val c r → s.disp[c][r] = false) → t.reg vf = 0) ∧
        t.pc = s.pc + 2 ∧ ChangesWithin DrawPart s t) ∧
    ∀ k, k < n.val → 0xFFF < s.i.toNat + k → (∀ j, j < k → s.i.toNat + j ≤ 0xFFF) →
      Raises (.drw x y n) s (.memoryOutOfBounds (s.i.toNat + k))

/-- Drawing the same sprite twice at the same origin restores the display, and the second draw sets VF exactly when the first lit a cell
(R204, which the spec derives from R202; clipping: log 8). The origin is the same unless x or y is VF and the first draw's flag differs from
the old VF. -/
def Obligations.DrawTwiceRestoresDisplay : Prop :=
  ∀ (x y : Reg) (n : Fin 16) (s : State), (∀ k, k < n.val → s.i.toNat + k ≤ 0xFFF) →
    ∃ t, exec (.drw x y n) s = .next t ∧ (x ≠ vf → t.reg x = s.reg x) ∧ (y ≠ vf → t.reg y = s.reg y) ∧
      (t.reg x = s.reg x → t.reg y = s.reg y →
        ∃ u, exec (.drw x y n) t = .next u ∧ u.disp = s.disp ∧
          ((∃ (c : Fin 64) (r : Fin 32), s.disp[c][r] = false ∧ t.disp[c][r] = true) → u.reg vf = 1) ∧
          ((∀ (c : Fin 64) (r : Fin 32), t.disp[c][r] = true → s.disp[c][r] = true) → u.reg vf = 0))

/-! ### 44_timer_keypad.md -/

/-- LD Vx, DT; LD DT, Vx; LD ST, Vx (R220, R221, R222): `t_last` is not changed. -/
def Obligations.TimerAccess : Prop :=
  ∀ (x : Reg) (s : State),
    (Encodes (0xF007 + x.val * 0x100) (.ldVxDt x) ∧
      ∃ t, exec (.ldVxDt x) s = .next t ∧ t.reg x = s.dt ∧ t.pc = s.pc + 2 ∧ ChangesOnly [.reg x, .pc] s t) ∧
    (Encodes (0xF015 + x.val * 0x100) (.ldDtVx x) ∧
      ∃ t, exec (.ldDtVx x) s = .next t ∧ t.dt = s.reg x ∧ t.pc = s.pc + 2 ∧ ChangesOnly [.dt, .pc] s t) ∧
    (Encodes (0xF018 + x.val * 0x100) (.ldStVx x) ∧
      ∃ t, exec (.ldStVx x) s = .next t ∧ t.st = s.reg x ∧ t.pc = s.pc + 2 ∧ ChangesOnly [.st, .pc] s t)

/-- LD Vx, K (R223): the wait begins, and nothing else changes: not pc, not `rkey`, even if a key is already reported. -/
def Obligations.WaitForKeyOnlySetsWait : Prop :=
  ∀ (x : Reg) (s : State), Encodes (0xF00A + x.val * 0x100) (.ldVxK x) ∧
    ∃ t, exec (.ldVxK x) s = .next t ∧ t.wait = some x ∧ ChangesOnly [.wait] s t

/-! ### 45_memory_index.md -/

/-- LD I, addr and LD F, Vx (R240, R242). -/
def Obligations.IndexLoads : Prop :=
  (∀ (addr : Addr12) (s : State), Encodes (0xA000 + addr.toNat) (.ldI addr) ∧
    ∃ t, exec (.ldI addr) s = .next t ∧ t.i.toNat = addr.toNat ∧ t.pc = s.pc + 2 ∧ ChangesOnly [.index, .pc] s t) ∧
  ∀ (x : Reg) (s : State), Encodes (0xF029 + x.val * 0x100) (.ldF x) ∧
    ∃ t, exec (.ldF x) s = .next t ∧ t.i.toNat = 5 * ((s.reg x).toNat % 16) ∧ t.pc = s.pc + 2 ∧
      ChangesOnly [.index, .pc] s t

/-- ADD I, Vx (R241): no flag; a sum above 0xFFFF faults. -/
def Obligations.AddToIndex : Prop :=
  ∀ (x : Reg) (s : State), Encodes (0xF01E + x.val * 0x100) (.addI x) ∧
    (s.i.toNat + (s.reg x).toNat ≤ 0xFFFF →
      ∃ t, exec (.addI x) s = .next t ∧ t.i.toNat = s.i.toNat + (s.reg x).toNat ∧ t.pc = s.pc + 2 ∧
        ChangesOnly [.index, .pc] s t) ∧
    (0xFFFF < s.i.toNat + (s.reg x).toNat → Raises (.addI x) s (.indexOverflow (s.i.toNat + (s.reg x).toNat)))

/-- LD B, Vx (R243): the three digits at I, I + 1, I + 2; the first failing address faults and nothing is written. Memory is canonical
(an invariant of its own, StepKeepsInvariant). -/
def Obligations.BcdStoresDigits : Prop :=
  ∀ (x : Reg) (s : State), Encodes (0xF033 + x.val * 0x100) (.ldB x) ∧
    (s.mem.wf → (∀ k, k < 3 → ¬ StoreFails (s.i.toNat + k)) →
      ∃ t, exec (.ldB x) s = .next t ∧
        (t.mem.byteAt s.i.toNat).toNat = (s.reg x).toNat / 100 ∧
        (t.mem.byteAt (s.i.toNat + 1)).toNat = (s.reg x).toNat / 10 % 10 ∧
        (t.mem.byteAt (s.i.toNat + 2)).toNat = (s.reg x).toNat % 10 ∧ t.pc = s.pc + 2 ∧
        ChangesWithin (StorePart s.i.toNat 3) s t) ∧
    ∀ k, k < 3 → StoreFails (s.i.toNat + k) → (∀ j, j < k → ¬ StoreFails (s.i.toNat + j)) →
      Raises (.ldB x) s (storeFault (s.i.toNat + k))

/-- LD [I], Vx (R244): V0 .. Vx at I .. I + x, I unchanged; the first failing address faults and nothing is written. Memory is canonical
(an invariant of its own, StepKeepsInvariant). -/
def Obligations.StoreBlockWritesRegisters : Prop :=
  ∀ (x : Reg) (s : State), Encodes (0xF055 + x.val * 0x100) (.storeRegs x) ∧
    (s.mem.wf → (∀ k, k ≤ x.val → ¬ StoreFails (s.i.toNat + k)) →
      ∃ t, exec (.storeRegs x) s = .next t ∧ (∀ r : Reg, r ≤ x → t.mem.byteAt (s.i.toNat + r.val) = s.reg r) ∧
        t.pc = s.pc + 2 ∧ ChangesWithin (StorePart s.i.toNat (x.val + 1)) s t) ∧
    ∀ k, k ≤ x.val → StoreFails (s.i.toNat + k) → (∀ j, j < k → ¬ StoreFails (s.i.toNat + j)) →
      Raises (.storeRegs x) s (storeFault (s.i.toNat + k))

/-- LD Vx, [I] (R245): V0 .. Vx from I .. I + x, I unchanged, VF an ordinary destination; the first address above 0xFFF faults and no register
is written. -/
def Obligations.LoadBlockReadsRegisters : Prop :=
  ∀ (x : Reg) (s : State), Encodes (0xF065 + x.val * 0x100) (.loadRegs x) ∧
    ((∀ k, k ≤ x.val → s.i.toNat + k ≤ 0xFFF) →
      ∃ t, exec (.loadRegs x) s = .next t ∧ (∀ r : Reg, r ≤ x → t.reg r = s.mem.byteAt (s.i.toNat + r.val)) ∧
        t.pc = s.pc + 2 ∧ ChangesWithin (LoadPart x) s t) ∧
    ∀ k, k ≤ x.val → 0xFFF < s.i.toNat + k → (∀ j, j < k → s.i.toNat + j ≤ 0xFFF) →
      Raises (.loadRegs x) s (.memoryOutOfBounds (s.i.toNat + k))

/-- The registers that `LD [I], Vx` stored come back with `LD Vx, [I]`, whatever the registers hold in between (R244, R245). -/
def Obligations.StoreThenLoadRestoresRegisters : Prop :=
  ∀ (x : Reg) (s : State) (v : Vector Byte 16), s.mem.wf → (∀ k, k ≤ x.val → ¬ StoreFails (s.i.toNat + k)) →
    ∃ t u, exec (.storeRegs x) s = .next t ∧ exec (.loadRegs x) (t.setRegs v) = .next u ∧
      (∀ r : Reg, r ≤ x → u.reg r = s.reg r) ∧ ∀ r : Reg, x < r → u.reg r = v[r]

/-- Two stored registers, fetched as an instruction, are its word with the lower-numbered register as the high byte: a store is seen by a
later fetch (20_memory.md R64, R70). -/
def Obligations.FetchSeesStoredRegisters : Prop :=
  ∀ (x a b : Reg) (s : State), s.mem.wf → (∀ k, k ≤ x.val → ¬ StoreFails (s.i.toNat + k)) → b ≤ x →
    b.val = a.val + 1 →
    ∃ t w, exec (.storeRegs x) s = .next t ∧ fetchWord (t.setPc (s.i + BitVec.ofNat 16 a.val)) = .ok w ∧
      w.toNat = (s.reg a).toNat * 256 + (s.reg b).toNat
end

