-- ==== Sys2Proof/Laws/Memory.lean ====
section
/-! SUPPORT. The laws of memory: a read after a write, the canonical form that every memory operation keeps, and what each checked
access answers (20_memory.md R62, R63, 60_exceptions.md R264). -/

namespace Sys2Proof.Machine

/-! ### Reading what was written -/

/-- A write leaves every other address alone, in every memory. -/
theorem Memory.byteAt_put_ne (m : Memory) {a b : Nat} (v : Byte) (h : b ≠ a) :
    (m.put a v).byteAt b = m.byteAt b := by
  induction m with
  | nil => simp only [Memory.put]; split <;> simp [Memory.byteAt, h]
  | cons c rest ih =>
    obtain ⟨k, w⟩ := c
    simp only [Memory.put]
    split
    · split <;> simp [Memory.byteAt, h]
    · split
      · rename_i _ hak
        subst hak
        split <;> simp [Memory.byteAt, h]
      · simp only [Memory.byteAt, ih]

/-- An address below every listed one reads as the reset contents. -/
theorem Memory.byteAt_of_lt (m : Memory) (a : Nat) (h : ∀ c ∈ m, a < c.1) : m.byteAt a = Memory.unlisted a := by
  induction m with
  | nil => rfl
  | cons c rest ih =>
    have hc : a ≠ c.1 := Nat.ne_of_lt (h c List.mem_cons_self)
    simp only [Memory.byteAt, hc, if_false]
    exact ih fun d hd => h d (List.mem_cons_of_mem _ hd)

/-- In a canonical memory, the addresses after the first are above it. -/
theorem Memory.wf_head_lt {c : Host.Cell} {rest : Memory} (h : Memory.wf (c :: rest)) : ∀ d ∈ rest, c.1 < d.1 := by
  intro d hd
  exact (List.pairwise_cons.1 h.1).1 d.1 (List.mem_map_of_mem hd)

theorem Memory.wf_tail {c : Host.Cell} {rest : Memory} (h : Memory.wf (c :: rest)) : Memory.wf rest :=
  ⟨(List.pairwise_cons.1 h.1).2, fun d hd => h.2 d (List.mem_cons_of_mem _ hd)⟩

theorem Memory.wf_cons {c : Host.Cell} {rest : Memory} (hrest : Memory.wf rest) (hlt : ∀ d ∈ rest, c.1 < d.1)
    (hsize : c.1 < Config.memSize) (hne : c.2 ≠ Memory.unlisted c.1) : Memory.wf (c :: rest) := by
  refine ⟨List.pairwise_cons.2 ⟨?_, hrest.1⟩, ?_⟩
  · intro k hk
    obtain ⟨d, hd, rfl⟩ := List.mem_map.1 hk
    exact hlt d hd
  · intro d hd
    rcases List.mem_cons.1 hd with rfl | hd
    · exact ⟨hsize, hne⟩
    · exact hrest.2 d hd

/-- A read after a write to the same address gives the value written. -/
theorem Memory.byteAt_put_self {m : Memory} (hm : m.wf) (a : Nat) (v : Byte) : (m.put a v).byteAt a = v := by
  induction m with
  | nil => simp only [Memory.put]; split <;> simp_all [Memory.byteAt]
  | cons c rest ih =>
    obtain ⟨k, w⟩ := c
    have hlt := Memory.wf_head_lt hm
    simp only [Memory.put]
    split
    · rename_i hak
      split
      · rename_i hv
        rw [hv]
        refine Memory.byteAt_of_lt _ _ ?_
        intro d hd
        rcases List.mem_cons.1 hd with rfl | hd
        · exact hak
        · exact Nat.lt_trans hak (hlt d hd)
      · simp [Memory.byteAt]
    · split
      · rename_i _ hak
        subst hak
        split
        · rename_i hv
          rw [hv]
          exact Memory.byteAt_of_lt _ _ hlt
        · simp [Memory.byteAt]
      · rename_i _ hak
        simp only [Memory.byteAt, hak, if_false]
        exact ih (Memory.wf_tail hm)

theorem Memory.byteAt_put {m : Memory} (hm : m.wf) (a b : Nat) (v : Byte) :
    (m.put a v).byteAt b = if b = a then v else m.byteAt b := by
  split
  · subst_vars; exact Memory.byteAt_put_self hm _ v
  · exact Memory.byteAt_put_ne m v ‹_›

/-! ### The canonical form -/

theorem Memory.mem_put {m : Memory} {a : Nat} {v : Byte} {c : Host.Cell} (h : c ∈ m.put a v) :
    (c = (a, v) ∧ v ≠ Memory.unlisted a) ∨ c ∈ m := by
  induction m with
  | nil =>
    simp only [Memory.put] at h
    split at h
    · simp at h
    · exact .inl ⟨by simpa using h, ‹_›⟩
  | cons d rest ih =>
    obtain ⟨k, w⟩ := d
    simp only [Memory.put] at h
    split at h
    · split at h
      · exact .inr h
      · rcases List.mem_cons.1 h with rfl | h
        · exact .inl ⟨rfl, ‹_›⟩
        · exact .inr h
    · split at h
      · split at h
        · exact .inr (List.mem_cons_of_mem _ h)
        · rcases List.mem_cons.1 h with rfl | h
          · exact .inl ⟨rfl, ‹_›⟩
          · exact .inr (List.mem_cons_of_mem _ h)
      · rcases List.mem_cons.1 h with rfl | h
        · exact .inr List.mem_cons_self
        · exact (ih h).imp_right (List.mem_cons_of_mem _)

/-- A write inside memory keeps the canonical form. -/
theorem Memory.wf_put {m : Memory} (hm : m.wf) {a : Nat} (ha : a < Config.memSize) (v : Byte) : (m.put a v).wf := by
  induction m with
  | nil =>
    simp only [Memory.put]
    split
    · exact hm
    · exact Memory.wf_cons hm (by simp) ha ‹_›
  | cons c rest ih =>
    obtain ⟨k, w⟩ := c
    have hlt := Memory.wf_head_lt hm
    have hrest := Memory.wf_tail hm
    have hc := hm.2 (k, w) List.mem_cons_self
    simp only [Memory.put]
    split
    · rename_i hak
      split
      · exact hm
      · refine Memory.wf_cons hm ?_ ha ‹_›
        intro d hd
        rcases List.mem_cons.1 hd with rfl | hd
        · exact hak
        · exact Nat.lt_trans hak (hlt d hd)
    · split
      · rename_i _ hak
        subst hak
        split
        · exact hrest
        · exact Memory.wf_cons hrest hlt ha ‹_›
      · rename_i h1 h2
        refine Memory.wf_cons (ih hrest) ?_ hc.1 hc.2
        intro d hd
        rcases Memory.mem_put hd with ⟨rfl, -⟩ | hd
        · exact Nat.lt_of_le_of_ne (Nat.le_of_not_lt h1) (Ne.symm h2)
        · exact hlt d hd

theorem Memory.wf_nil : Memory.wf ([] : Memory) := by simp [Memory.wf]

theorem Memory.wf_putBytes {m : Memory} (hm : m.wf) {a : Nat} {bytes : List Byte}
    (h : a + bytes.length ≤ Config.memSize) : (m.putBytes a bytes).wf := by
  induction bytes generalizing m a with
  | nil => exact hm
  | cons v rest ih =>
    simp only [List.length_cons] at h
    exact ih (Memory.wf_put hm (by omega) v) (by omega)

/-- What a block write of `bytes` from `a` reads as: the bytes, and every other address as before. -/
theorem Memory.byteAt_putBytes {m : Memory} (hm : m.wf) {a : Nat} {bytes : List Byte}
    (h : a + bytes.length ≤ Config.memSize) (b : Nat) :
    (m.putBytes a bytes).byteAt b = if a ≤ b ∧ b < a + bytes.length then bytes.getD (b - a) 0 else m.byteAt b := by
  induction bytes generalizing m a with
  | nil =>
    have hne : ¬ (a ≤ b ∧ b < a) := by omega
    simp [Memory.putBytes, hne]
  | cons v rest ih =>
    simp only [List.length_cons] at h
    rw [Memory.putBytes, ih (Memory.wf_put hm (by omega) v) (by omega), Memory.byteAt_put hm]
    simp only [List.length_cons]
    by_cases hab : b = a
    · subst hab
      simp
    · by_cases hin : a + 1 ≤ b ∧ b < a + 1 + rest.length
      · have h2 : a ≤ b ∧ b < a + (rest.length + 1) := by omega
        have h3 : b - a = (b - (a + 1)) + 1 := by omega
        simp [hin, h2, h3]
      · have h2 : ¬ (a ≤ b ∧ b < a + (rest.length + 1)) := by omega
        rw [if_neg hin, if_neg h2, if_neg hab]

/-- A block write leaves every address outside the block alone, in every memory. -/
theorem Memory.byteAt_putBytes_outside (m : Memory) {a b : Nat} {bytes : List Byte}
    (h : ¬ (a ≤ b ∧ b < a + bytes.length)) : (m.putBytes a bytes).byteAt b = m.byteAt b := by
  induction bytes generalizing m a with
  | nil => rfl
  | cons v rest ih =>
    simp only [List.length_cons] at h
    rw [Memory.putBytes, ih (m.put a v) (by omega), Memory.byteAt_put_ne m v (by omega)]

/-! ### Checked accesses -/

/-- All that a checked read can answer (R62). -/
theorem memRead_eq (m : Memory) (a : Nat) :
    memRead m a = if a < 4096 then .ok (m.byteAt a) else .error (.memoryOutOfBounds a) := by
  unfold memRead Config.memSize
  split <;> split <;> first | rfl | omega

/-- A block read inside memory gives the bytes. -/
theorem readBlock_ok (m : Memory) {a n : Nat} (h : a + n ≤ 4096 ∨ n = 0) :
    readBlock m a n = .ok ((List.range n).map fun k => m.byteAt (a + k)) := by
  induction n generalizing a with
  | zero => rfl
  | succ n ih =>
    have ha : a < 4096 := by omega
    simp only [readBlock, memRead_eq, ha, if_true, ih (a := a + 1) (by omega), bind, Except.bind]
    rw [List.range_succ_eq_map]
    simp [Function.comp_def, Nat.add_assoc, Nat.add_comm 1]

/-- A block read that leaves memory reports the first address above 0xFFF. -/
theorem readBlock_error (m : Memory) {a n : Nat} (h : 4096 < a + n) (hn : n ≠ 0) :
    readBlock m a n = .error (.memoryOutOfBounds (max a 4096)) := by
  induction n generalizing a with
  | zero => exact absurd rfl hn
  | succ n ih =>
    by_cases ha : a < 4096
    · have hn' : n ≠ 0 := by omega
      simp only [readBlock, memRead_eq, ha, if_true, ih (a := a + 1) (by omega) hn', bind, Except.bind]
      congr 2
      omega
    · simp only [readBlock, memRead_eq, ha, if_false, bind, Except.bind]
      congr 2
      omega

/-- All that a checked write can answer (R63). -/
theorem memWrite_eq (m : Memory) (a : Nat) (v : Byte) :
    memWrite m a v =
      if a < 0x50 then .error (.fontRegionStore a)
      else if a < 4096 then .ok (m.put a v) else .error (.memoryOutOfBounds a) := by
  unfold memWrite Config.memSize Config.fontSize
  split <;> split <;> first | rfl | omega | (split <;> first | rfl | omega)

/-- A block write to 0x050 .. 0xFFF is performed. -/
theorem writeBlock_ok (m : Memory) {a : Nat} {bytes : List Byte} (hlo : 0x50 ≤ a) (hhi : a + bytes.length ≤ 4096) :
    writeBlock m a bytes = .ok (m.putBytes a bytes) := by
  induction bytes generalizing m a with
  | nil => rfl
  | cons v rest ih =>
    simp only [List.length_cons] at hhi
    have h1 : ¬ a < 0x50 := by omega
    have h2 : a < 4096 := by omega
    simp only [writeBlock, memWrite_eq, h1, h2, if_false, if_true, bind, Except.bind, Memory.putBytes]
    exact ih (m.put a v) (by omega) (by omega)

/-- A block write from an address of the font reports that address. -/
theorem writeBlock_font (m : Memory) {a : Nat} {bytes : List Byte} (ha : a < 0x50) (hn : bytes ≠ []) :
    writeBlock m a bytes = .error (.fontRegionStore a) := by
  cases bytes with
  | nil => exact absurd rfl hn
  | cons v rest => simp only [writeBlock, memWrite_eq, ha, if_true, bind, Except.bind]

/-- A block write that starts at or above 0x050 and leaves memory reports the first address above 0xFFF. -/
theorem writeBlock_above (m : Memory) {a : Nat} {bytes : List Byte} (hlo : 0x50 ≤ a) (hhi : 4096 < a + bytes.length)
    (hn : bytes ≠ []) : writeBlock m a bytes = .error (.memoryOutOfBounds (max a 4096)) := by
  induction bytes generalizing m a with
  | nil => exact absurd rfl hn
  | cons v rest ih =>
    simp only [List.length_cons] at hhi
    have h1 : ¬ a < 0x50 := by omega
    by_cases ha : a < 4096
    · have hr : rest ≠ [] := by
        intro h
        rw [h, List.length_nil] at hhi
        omega
      simp only [writeBlock, memWrite_eq, h1, ha, if_false, if_true, bind, Except.bind]
      rw [ih (m.put a v) (by omega) (by omega) hr]
      congr 2
      omega
    · simp only [writeBlock, memWrite_eq, h1, ha, if_false, bind, Except.bind]
      congr 2
      omega

/-- All that a block write can answer, by where its block lies. -/
theorem writeBlock_cases {m m' : Memory} {a : Nat} {bytes : List Byte} (h : writeBlock m a bytes = .ok m') :
    bytes = [] ∧ m' = m ∨ (0x50 ≤ a ∧ a + bytes.length ≤ 4096 ∧ m' = m.putBytes a bytes) := by
  by_cases hn : bytes = []
  · subst hn
    exact .inl ⟨rfl, by simpa [writeBlock] using h.symm⟩
  · right
    by_cases hlo : a < 0x50
    · rw [writeBlock_font m hlo hn] at h
      cases h
    · by_cases hhi : a + bytes.length ≤ 4096
      · rw [writeBlock_ok m (by omega) hhi] at h
        exact ⟨by omega, hhi, by cases h; rfl⟩
      · rw [writeBlock_above m (by omega) (by omega) hn] at h
        cases h

end Sys2Proof.Machine
end

