-- ==== Sys2Proof/Laws/State.lean ====
section
/-! SUPPORT. What each update of the state does to each field (true by rfl), to the register reads, and what the composed updates
of Machine/Ops.lean and Machine/Flags.lean are in terms of them. -/

namespace Sys2Proof.Machine

variable (s : State)

/-! ### setReg -/

@[simp] theorem State.setReg_v (r : Reg) (b : Byte) : (s.setReg r b).v = s.v.set r b := rfl
@[simp] theorem State.setReg_i (r : Reg) (b : Byte) : (s.setReg r b).i = s.i := rfl
@[simp] theorem State.setReg_pc (r : Reg) (b : Byte) : (s.setReg r b).pc = s.pc := rfl
@[simp] theorem State.setReg_stack (r : Reg) (b : Byte) : (s.setReg r b).stack = s.stack := rfl
@[simp] theorem State.setReg_sp (r : Reg) (b : Byte) : (s.setReg r b).sp = s.sp := rfl
@[simp] theorem State.setReg_mem (r : Reg) (b : Byte) : (s.setReg r b).mem = s.mem := rfl
@[simp] theorem State.setReg_disp (r : Reg) (b : Byte) : (s.setReg r b).disp = s.disp := rfl
@[simp] theorem State.setReg_dt (r : Reg) (b : Byte) : (s.setReg r b).dt = s.dt := rfl
@[simp] theorem State.setReg_st (r : Reg) (b : Byte) : (s.setReg r b).st = s.st := rfl
@[simp] theorem State.setReg_keys (r : Reg) (b : Byte) : (s.setReg r b).keys = s.keys := rfl
@[simp] theorem State.setReg_wait (r : Reg) (b : Byte) : (s.setReg r b).wait = s.wait := rfl
@[simp] theorem State.setReg_rkey (r : Reg) (b : Byte) : (s.setReg r b).rkey = s.rkey := rfl
@[simp] theorem State.setReg_running (r : Reg) (b : Byte) : (s.setReg r b).running = s.running := rfl
@[simp] theorem State.setReg_romLen (r : Reg) (b : Byte) : (s.setReg r b).romLen = s.romLen := rfl
@[simp] theorem State.setReg_tLast (r : Reg) (b : Byte) : (s.setReg r b).tLast = s.tLast := rfl
@[simp] theorem State.setReg_fault (r : Reg) (b : Byte) : (s.setReg r b).fault = s.fault := rfl
@[simp] theorem State.setReg_now (r : Reg) (b : Byte) : (s.setReg r b).now = s.now := rfl
@[simp] theorem State.setReg_draws (r : Reg) (b : Byte) : (s.setReg r b).draws = s.draws := rfl

/-! ### setRegs -/

@[simp] theorem State.setRegs_v (v : Vector Byte 16) : (s.setRegs v).v = v := rfl
@[simp] theorem State.setRegs_i (v : Vector Byte 16) : (s.setRegs v).i = s.i := rfl
@[simp] theorem State.setRegs_pc (v : Vector Byte 16) : (s.setRegs v).pc = s.pc := rfl
@[simp] theorem State.setRegs_stack (v : Vector Byte 16) : (s.setRegs v).stack = s.stack := rfl
@[simp] theorem State.setRegs_sp (v : Vector Byte 16) : (s.setRegs v).sp = s.sp := rfl
@[simp] theorem State.setRegs_mem (v : Vector Byte 16) : (s.setRegs v).mem = s.mem := rfl
@[simp] theorem State.setRegs_disp (v : Vector Byte 16) : (s.setRegs v).disp = s.disp := rfl
@[simp] theorem State.setRegs_dt (v : Vector Byte 16) : (s.setRegs v).dt = s.dt := rfl
@[simp] theorem State.setRegs_st (v : Vector Byte 16) : (s.setRegs v).st = s.st := rfl
@[simp] theorem State.setRegs_keys (v : Vector Byte 16) : (s.setRegs v).keys = s.keys := rfl
@[simp] theorem State.setRegs_wait (v : Vector Byte 16) : (s.setRegs v).wait = s.wait := rfl
@[simp] theorem State.setRegs_rkey (v : Vector Byte 16) : (s.setRegs v).rkey = s.rkey := rfl
@[simp] theorem State.setRegs_running (v : Vector Byte 16) : (s.setRegs v).running = s.running := rfl
@[simp] theorem State.setRegs_romLen (v : Vector Byte 16) : (s.setRegs v).romLen = s.romLen := rfl
@[simp] theorem State.setRegs_tLast (v : Vector Byte 16) : (s.setRegs v).tLast = s.tLast := rfl
@[simp] theorem State.setRegs_fault (v : Vector Byte 16) : (s.setRegs v).fault = s.fault := rfl
@[simp] theorem State.setRegs_now (v : Vector Byte 16) : (s.setRegs v).now = s.now := rfl
@[simp] theorem State.setRegs_draws (v : Vector Byte 16) : (s.setRegs v).draws = s.draws := rfl

/-! ### setI -/

@[simp] theorem State.setI_v (w : Word) : (s.setI w).v = s.v := rfl
@[simp] theorem State.setI_i (w : Word) : (s.setI w).i = w := rfl
@[simp] theorem State.setI_pc (w : Word) : (s.setI w).pc = s.pc := rfl
@[simp] theorem State.setI_stack (w : Word) : (s.setI w).stack = s.stack := rfl
@[simp] theorem State.setI_sp (w : Word) : (s.setI w).sp = s.sp := rfl
@[simp] theorem State.setI_mem (w : Word) : (s.setI w).mem = s.mem := rfl
@[simp] theorem State.setI_disp (w : Word) : (s.setI w).disp = s.disp := rfl
@[simp] theorem State.setI_dt (w : Word) : (s.setI w).dt = s.dt := rfl
@[simp] theorem State.setI_st (w : Word) : (s.setI w).st = s.st := rfl
@[simp] theorem State.setI_keys (w : Word) : (s.setI w).keys = s.keys := rfl
@[simp] theorem State.setI_wait (w : Word) : (s.setI w).wait = s.wait := rfl
@[simp] theorem State.setI_rkey (w : Word) : (s.setI w).rkey = s.rkey := rfl
@[simp] theorem State.setI_running (w : Word) : (s.setI w).running = s.running := rfl
@[simp] theorem State.setI_romLen (w : Word) : (s.setI w).romLen = s.romLen := rfl
@[simp] theorem State.setI_tLast (w : Word) : (s.setI w).tLast = s.tLast := rfl
@[simp] theorem State.setI_fault (w : Word) : (s.setI w).fault = s.fault := rfl
@[simp] theorem State.setI_now (w : Word) : (s.setI w).now = s.now := rfl
@[simp] theorem State.setI_draws (w : Word) : (s.setI w).draws = s.draws := rfl
@[simp] theorem State.setI_reg (w : Word) (q : Reg) : (s.setI w).reg q = s.reg q := rfl

/-! ### setPc -/

@[simp] theorem State.setPc_v (w : Word) : (s.setPc w).v = s.v := rfl
@[simp] theorem State.setPc_i (w : Word) : (s.setPc w).i = s.i := rfl
@[simp] theorem State.setPc_pc (w : Word) : (s.setPc w).pc = w := rfl
@[simp] theorem State.setPc_stack (w : Word) : (s.setPc w).stack = s.stack := rfl
@[simp] theorem State.setPc_sp (w : Word) : (s.setPc w).sp = s.sp := rfl
@[simp] theorem State.setPc_mem (w : Word) : (s.setPc w).mem = s.mem := rfl
@[simp] theorem State.setPc_disp (w : Word) : (s.setPc w).disp = s.disp := rfl
@[simp] theorem State.setPc_dt (w : Word) : (s.setPc w).dt = s.dt := rfl
@[simp] theorem State.setPc_st (w : Word) : (s.setPc w).st = s.st := rfl
@[simp] theorem State.setPc_keys (w : Word) : (s.setPc w).keys = s.keys := rfl
@[simp] theorem State.setPc_wait (w : Word) : (s.setPc w).wait = s.wait := rfl
@[simp] theorem State.setPc_rkey (w : Word) : (s.setPc w).rkey = s.rkey := rfl
@[simp] theorem State.setPc_running (w : Word) : (s.setPc w).running = s.running := rfl
@[simp] theorem State.setPc_romLen (w : Word) : (s.setPc w).romLen = s.romLen := rfl
@[simp] theorem State.setPc_tLast (w : Word) : (s.setPc w).tLast = s.tLast := rfl
@[simp] theorem State.setPc_fault (w : Word) : (s.setPc w).fault = s.fault := rfl
@[simp] theorem State.setPc_now (w : Word) : (s.setPc w).now = s.now := rfl
@[simp] theorem State.setPc_draws (w : Word) : (s.setPc w).draws = s.draws := rfl
@[simp] theorem State.setPc_reg (w : Word) (q : Reg) : (s.setPc w).reg q = s.reg q := rfl

/-! ### setStack -/

@[simp] theorem State.setStack_v (k : Vector Word 16) (n : Fin 17) : (s.setStack k n).v = s.v := rfl
@[simp] theorem State.setStack_i (k : Vector Word 16) (n : Fin 17) : (s.setStack k n).i = s.i := rfl
@[simp] theorem State.setStack_pc (k : Vector Word 16) (n : Fin 17) : (s.setStack k n).pc = s.pc := rfl
@[simp] theorem State.setStack_stack (k : Vector Word 16) (n : Fin 17) : (s.setStack k n).stack = k := rfl
@[simp] theorem State.setStack_sp (k : Vector Word 16) (n : Fin 17) : (s.setStack k n).sp = n := rfl
@[simp] theorem State.setStack_mem (k : Vector Word 16) (n : Fin 17) : (s.setStack k n).mem = s.mem := rfl
@[simp] theorem State.setStack_disp (k : Vector Word 16) (n : Fin 17) : (s.setStack k n).disp = s.disp := rfl
@[simp] theorem State.setStack_dt (k : Vector Word 16) (n : Fin 17) : (s.setStack k n).dt = s.dt := rfl
@[simp] theorem State.setStack_st (k : Vector Word 16) (n : Fin 17) : (s.setStack k n).st = s.st := rfl
@[simp] theorem State.setStack_keys (k : Vector Word 16) (n : Fin 17) : (s.setStack k n).keys = s.keys := rfl
@[simp] theorem State.setStack_wait (k : Vector Word 16) (n : Fin 17) : (s.setStack k n).wait = s.wait := rfl
@[simp] theorem State.setStack_rkey (k : Vector Word 16) (n : Fin 17) : (s.setStack k n).rkey = s.rkey := rfl
@[simp] theorem State.setStack_running (k : Vector Word 16) (n : Fin 17) : (s.setStack k n).running = s.running := rfl
@[simp] theorem State.setStack_romLen (k : Vector Word 16) (n : Fin 17) : (s.setStack k n).romLen = s.romLen := rfl
@[simp] theorem State.setStack_tLast (k : Vector Word 16) (n : Fin 17) : (s.setStack k n).tLast = s.tLast := rfl
@[simp] theorem State.setStack_fault (k : Vector Word 16) (n : Fin 17) : (s.setStack k n).fault = s.fault := rfl
@[simp] theorem State.setStack_now (k : Vector Word 16) (n : Fin 17) : (s.setStack k n).now = s.now := rfl
@[simp] theorem State.setStack_draws (k : Vector Word 16) (n : Fin 17) : (s.setStack k n).draws = s.draws := rfl
@[simp] theorem State.setStack_reg (k : Vector Word 16) (n : Fin 17) (q : Reg) : (s.setStack k n).reg q = s.reg q := rfl

/-! ### setMem -/

@[simp] theorem State.setMem_v (m : Memory) : (s.setMem m).v = s.v := rfl
@[simp] theorem State.setMem_i (m : Memory) : (s.setMem m).i = s.i := rfl
@[simp] theorem State.setMem_pc (m : Memory) : (s.setMem m).pc = s.pc := rfl
@[simp] theorem State.setMem_stack (m : Memory) : (s.setMem m).stack = s.stack := rfl
@[simp] theorem State.setMem_sp (m : Memory) : (s.setMem m).sp = s.sp := rfl
@[simp] theorem State.setMem_mem (m : Memory) : (s.setMem m).mem = m := rfl
@[simp] theorem State.setMem_disp (m : Memory) : (s.setMem m).disp = s.disp := rfl
@[simp] theorem State.setMem_dt (m : Memory) : (s.setMem m).dt = s.dt := rfl
@[simp] theorem State.setMem_st (m : Memory) : (s.setMem m).st = s.st := rfl
@[simp] theorem State.setMem_keys (m : Memory) : (s.setMem m).keys = s.keys := rfl
@[simp] theorem State.setMem_wait (m : Memory) : (s.setMem m).wait = s.wait := rfl
@[simp] theorem State.setMem_rkey (m : Memory) : (s.setMem m).rkey = s.rkey := rfl
@[simp] theorem State.setMem_running (m : Memory) : (s.setMem m).running = s.running := rfl
@[simp] theorem State.setMem_romLen (m : Memory) : (s.setMem m).romLen = s.romLen := rfl
@[simp] theorem State.setMem_tLast (m : Memory) : (s.setMem m).tLast = s.tLast := rfl
@[simp] theorem State.setMem_fault (m : Memory) : (s.setMem m).fault = s.fault := rfl
@[simp] theorem State.setMem_now (m : Memory) : (s.setMem m).now = s.now := rfl
@[simp] theorem State.setMem_draws (m : Memory) : (s.setMem m).draws = s.draws := rfl
@[simp] theorem State.setMem_reg (m : Memory) (q : Reg) : (s.setMem m).reg q = s.reg q := rfl

/-! ### setDisp -/

@[simp] theorem State.setDisp_v (d : Display) : (s.setDisp d).v = s.v := rfl
@[simp] theorem State.setDisp_i (d : Display) : (s.setDisp d).i = s.i := rfl
@[simp] theorem State.setDisp_pc (d : Display) : (s.setDisp d).pc = s.pc := rfl
@[simp] theorem State.setDisp_stack (d : Display) : (s.setDisp d).stack = s.stack := rfl
@[simp] theorem State.setDisp_sp (d : Display) : (s.setDisp d).sp = s.sp := rfl
@[simp] theorem State.setDisp_mem (d : Display) : (s.setDisp d).mem = s.mem := rfl
@[simp] theorem State.setDisp_disp (d : Display) : (s.setDisp d).disp = d := rfl
@[simp] theorem State.setDisp_dt (d : Display) : (s.setDisp d).dt = s.dt := rfl
@[simp] theorem State.setDisp_st (d : Display) : (s.setDisp d).st = s.st := rfl
@[simp] theorem State.setDisp_keys (d : Display) : (s.setDisp d).keys = s.keys := rfl
@[simp] theorem State.setDisp_wait (d : Display) : (s.setDisp d).wait = s.wait := rfl
@[simp] theorem State.setDisp_rkey (d : Display) : (s.setDisp d).rkey = s.rkey := rfl
@[simp] theorem State.setDisp_running (d : Display) : (s.setDisp d).running = s.running := rfl
@[simp] theorem State.setDisp_romLen (d : Display) : (s.setDisp d).romLen = s.romLen := rfl
@[simp] theorem State.setDisp_tLast (d : Display) : (s.setDisp d).tLast = s.tLast := rfl
@[simp] theorem State.setDisp_fault (d : Display) : (s.setDisp d).fault = s.fault := rfl
@[simp] theorem State.setDisp_now (d : Display) : (s.setDisp d).now = s.now := rfl
@[simp] theorem State.setDisp_draws (d : Display) : (s.setDisp d).draws = s.draws := rfl
@[simp] theorem State.setDisp_reg (d : Display) (q : Reg) : (s.setDisp d).reg q = s.reg q := rfl

/-! ### setDt -/

@[simp] theorem State.setDt_v (b : Byte) : (s.setDt b).v = s.v := rfl
@[simp] theorem State.setDt_i (b : Byte) : (s.setDt b).i = s.i := rfl
@[simp] theorem State.setDt_pc (b : Byte) : (s.setDt b).pc = s.pc := rfl
@[simp] theorem State.setDt_stack (b : Byte) : (s.setDt b).stack = s.stack := rfl
@[simp] theorem State.setDt_sp (b : Byte) : (s.setDt b).sp = s.sp := rfl
@[simp] theorem State.setDt_mem (b : Byte) : (s.setDt b).mem = s.mem := rfl
@[simp] theorem State.setDt_disp (b : Byte) : (s.setDt b).disp = s.disp := rfl
@[simp] theorem State.setDt_dt (b : Byte) : (s.setDt b).dt = b := rfl
@[simp] theorem State.setDt_st (b : Byte) : (s.setDt b).st = s.st := rfl
@[simp] theorem State.setDt_keys (b : Byte) : (s.setDt b).keys = s.keys := rfl
@[simp] theorem State.setDt_wait (b : Byte) : (s.setDt b).wait = s.wait := rfl
@[simp] theorem State.setDt_rkey (b : Byte) : (s.setDt b).rkey = s.rkey := rfl
@[simp] theorem State.setDt_running (b : Byte) : (s.setDt b).running = s.running := rfl
@[simp] theorem State.setDt_romLen (b : Byte) : (s.setDt b).romLen = s.romLen := rfl
@[simp] theorem State.setDt_tLast (b : Byte) : (s.setDt b).tLast = s.tLast := rfl
@[simp] theorem State.setDt_fault (b : Byte) : (s.setDt b).fault = s.fault := rfl
@[simp] theorem State.setDt_now (b : Byte) : (s.setDt b).now = s.now := rfl
@[simp] theorem State.setDt_draws (b : Byte) : (s.setDt b).draws = s.draws := rfl
@[simp] theorem State.setDt_reg (b : Byte) (q : Reg) : (s.setDt b).reg q = s.reg q := rfl

/-! ### setSt -/

@[simp] theorem State.setSt_v (b : Byte) : (s.setSt b).v = s.v := rfl
@[simp] theorem State.setSt_i (b : Byte) : (s.setSt b).i = s.i := rfl
@[simp] theorem State.setSt_pc (b : Byte) : (s.setSt b).pc = s.pc := rfl
@[simp] theorem State.setSt_stack (b : Byte) : (s.setSt b).stack = s.stack := rfl
@[simp] theorem State.setSt_sp (b : Byte) : (s.setSt b).sp = s.sp := rfl
@[simp] theorem State.setSt_mem (b : Byte) : (s.setSt b).mem = s.mem := rfl
@[simp] theorem State.setSt_disp (b : Byte) : (s.setSt b).disp = s.disp := rfl
@[simp] theorem State.setSt_dt (b : Byte) : (s.setSt b).dt = s.dt := rfl
@[simp] theorem State.setSt_st (b : Byte) : (s.setSt b).st = b := rfl
@[simp] theorem State.setSt_keys (b : Byte) : (s.setSt b).keys = s.keys := rfl
@[simp] theorem State.setSt_wait (b : Byte) : (s.setSt b).wait = s.wait := rfl
@[simp] theorem State.setSt_rkey (b : Byte) : (s.setSt b).rkey = s.rkey := rfl
@[simp] theorem State.setSt_running (b : Byte) : (s.setSt b).running = s.running := rfl
@[simp] theorem State.setSt_romLen (b : Byte) : (s.setSt b).romLen = s.romLen := rfl
@[simp] theorem State.setSt_tLast (b : Byte) : (s.setSt b).tLast = s.tLast := rfl
@[simp] theorem State.setSt_fault (b : Byte) : (s.setSt b).fault = s.fault := rfl
@[simp] theorem State.setSt_now (b : Byte) : (s.setSt b).now = s.now := rfl
@[simp] theorem State.setSt_draws (b : Byte) : (s.setSt b).draws = s.draws := rfl
@[simp] theorem State.setSt_reg (b : Byte) (q : Reg) : (s.setSt b).reg q = s.reg q := rfl

/-! ### setKey -/

@[simp] theorem State.setKey_v (k : Key) (p : Bool) : (s.setKey k p).v = s.v := rfl
@[simp] theorem State.setKey_i (k : Key) (p : Bool) : (s.setKey k p).i = s.i := rfl
@[simp] theorem State.setKey_pc (k : Key) (p : Bool) : (s.setKey k p).pc = s.pc := rfl
@[simp] theorem State.setKey_stack (k : Key) (p : Bool) : (s.setKey k p).stack = s.stack := rfl
@[simp] theorem State.setKey_sp (k : Key) (p : Bool) : (s.setKey k p).sp = s.sp := rfl
@[simp] theorem State.setKey_mem (k : Key) (p : Bool) : (s.setKey k p).mem = s.mem := rfl
@[simp] theorem State.setKey_disp (k : Key) (p : Bool) : (s.setKey k p).disp = s.disp := rfl
@[simp] theorem State.setKey_dt (k : Key) (p : Bool) : (s.setKey k p).dt = s.dt := rfl
@[simp] theorem State.setKey_st (k : Key) (p : Bool) : (s.setKey k p).st = s.st := rfl
@[simp] theorem State.setKey_keys (k : Key) (p : Bool) : (s.setKey k p).keys = s.keys.set k p := rfl
@[simp] theorem State.setKey_wait (k : Key) (p : Bool) : (s.setKey k p).wait = s.wait := rfl
@[simp] theorem State.setKey_rkey (k : Key) (p : Bool) : (s.setKey k p).rkey = s.rkey := rfl
@[simp] theorem State.setKey_running (k : Key) (p : Bool) : (s.setKey k p).running = s.running := rfl
@[simp] theorem State.setKey_romLen (k : Key) (p : Bool) : (s.setKey k p).romLen = s.romLen := rfl
@[simp] theorem State.setKey_tLast (k : Key) (p : Bool) : (s.setKey k p).tLast = s.tLast := rfl
@[simp] theorem State.setKey_fault (k : Key) (p : Bool) : (s.setKey k p).fault = s.fault := rfl
@[simp] theorem State.setKey_now (k : Key) (p : Bool) : (s.setKey k p).now = s.now := rfl
@[simp] theorem State.setKey_draws (k : Key) (p : Bool) : (s.setKey k p).draws = s.draws := rfl
@[simp] theorem State.setKey_reg (k : Key) (p : Bool) (q : Reg) : (s.setKey k p).reg q = s.reg q := rfl

/-! ### setWait -/

@[simp] theorem State.setWait_v (r : Option Reg) : (s.setWait r).v = s.v := rfl
@[simp] theorem State.setWait_i (r : Option Reg) : (s.setWait r).i = s.i := rfl
@[simp] theorem State.setWait_pc (r : Option Reg) : (s.setWait r).pc = s.pc := rfl
@[simp] theorem State.setWait_stack (r : Option Reg) : (s.setWait r).stack = s.stack := rfl
@[simp] theorem State.setWait_sp (r : Option Reg) : (s.setWait r).sp = s.sp := rfl
@[simp] theorem State.setWait_mem (r : Option Reg) : (s.setWait r).mem = s.mem := rfl
@[simp] theorem State.setWait_disp (r : Option Reg) : (s.setWait r).disp = s.disp := rfl
@[simp] theorem State.setWait_dt (r : Option Reg) : (s.setWait r).dt = s.dt := rfl
@[simp] theorem State.setWait_st (r : Option Reg) : (s.setWait r).st = s.st := rfl
@[simp] theorem State.setWait_keys (r : Option Reg) : (s.setWait r).keys = s.keys := rfl
@[simp] theorem State.setWait_wait (r : Option Reg) : (s.setWait r).wait = r := rfl
@[simp] theorem State.setWait_rkey (r : Option Reg) : (s.setWait r).rkey = s.rkey := rfl
@[simp] theorem State.setWait_running (r : Option Reg) : (s.setWait r).running = s.running := rfl
@[simp] theorem State.setWait_romLen (r : Option Reg) : (s.setWait r).romLen = s.romLen := rfl
@[simp] theorem State.setWait_tLast (r : Option Reg) : (s.setWait r).tLast = s.tLast := rfl
@[simp] theorem State.setWait_fault (r : Option Reg) : (s.setWait r).fault = s.fault := rfl
@[simp] theorem State.setWait_now (r : Option Reg) : (s.setWait r).now = s.now := rfl
@[simp] theorem State.setWait_draws (r : Option Reg) : (s.setWait r).draws = s.draws := rfl
@[simp] theorem State.setWait_reg (r : Option Reg) (q : Reg) : (s.setWait r).reg q = s.reg q := rfl

/-! ### setRkey -/

@[simp] theorem State.setRkey_v (k : Option Key) : (s.setRkey k).v = s.v := rfl
@[simp] theorem State.setRkey_i (k : Option Key) : (s.setRkey k).i = s.i := rfl
@[simp] theorem State.setRkey_pc (k : Option Key) : (s.setRkey k).pc = s.pc := rfl
@[simp] theorem State.setRkey_stack (k : Option Key) : (s.setRkey k).stack = s.stack := rfl
@[simp] theorem State.setRkey_sp (k : Option Key) : (s.setRkey k).sp = s.sp := rfl
@[simp] theorem State.setRkey_mem (k : Option Key) : (s.setRkey k).mem = s.mem := rfl
@[simp] theorem State.setRkey_disp (k : Option Key) : (s.setRkey k).disp = s.disp := rfl
@[simp] theorem State.setRkey_dt (k : Option Key) : (s.setRkey k).dt = s.dt := rfl
@[simp] theorem State.setRkey_st (k : Option Key) : (s.setRkey k).st = s.st := rfl
@[simp] theorem State.setRkey_keys (k : Option Key) : (s.setRkey k).keys = s.keys := rfl
@[simp] theorem State.setRkey_wait (k : Option Key) : (s.setRkey k).wait = s.wait := rfl
@[simp] theorem State.setRkey_rkey (k : Option Key) : (s.setRkey k).rkey = k := rfl
@[simp] theorem State.setRkey_running (k : Option Key) : (s.setRkey k).running = s.running := rfl
@[simp] theorem State.setRkey_romLen (k : Option Key) : (s.setRkey k).romLen = s.romLen := rfl
@[simp] theorem State.setRkey_tLast (k : Option Key) : (s.setRkey k).tLast = s.tLast := rfl
@[simp] theorem State.setRkey_fault (k : Option Key) : (s.setRkey k).fault = s.fault := rfl
@[simp] theorem State.setRkey_now (k : Option Key) : (s.setRkey k).now = s.now := rfl
@[simp] theorem State.setRkey_draws (k : Option Key) : (s.setRkey k).draws = s.draws := rfl
@[simp] theorem State.setRkey_reg (k : Option Key) (q : Reg) : (s.setRkey k).reg q = s.reg q := rfl

/-! ### setRunning -/

@[simp] theorem State.setRunning_v (b : Bool) : (s.setRunning b).v = s.v := rfl
@[simp] theorem State.setRunning_i (b : Bool) : (s.setRunning b).i = s.i := rfl
@[simp] theorem State.setRunning_pc (b : Bool) : (s.setRunning b).pc = s.pc := rfl
@[simp] theorem State.setRunning_stack (b : Bool) : (s.setRunning b).stack = s.stack := rfl
@[simp] theorem State.setRunning_sp (b : Bool) : (s.setRunning b).sp = s.sp := rfl
@[simp] theorem State.setRunning_mem (b : Bool) : (s.setRunning b).mem = s.mem := rfl
@[simp] theorem State.setRunning_disp (b : Bool) : (s.setRunning b).disp = s.disp := rfl
@[simp] theorem State.setRunning_dt (b : Bool) : (s.setRunning b).dt = s.dt := rfl
@[simp] theorem State.setRunning_st (b : Bool) : (s.setRunning b).st = s.st := rfl
@[simp] theorem State.setRunning_keys (b : Bool) : (s.setRunning b).keys = s.keys := rfl
@[simp] theorem State.setRunning_wait (b : Bool) : (s.setRunning b).wait = s.wait := rfl
@[simp] theorem State.setRunning_rkey (b : Bool) : (s.setRunning b).rkey = s.rkey := rfl
@[simp] theorem State.setRunning_running (b : Bool) : (s.setRunning b).running = b := rfl
@[simp] theorem State.setRunning_romLen (b : Bool) : (s.setRunning b).romLen = s.romLen := rfl
@[simp] theorem State.setRunning_tLast (b : Bool) : (s.setRunning b).tLast = s.tLast := rfl
@[simp] theorem State.setRunning_fault (b : Bool) : (s.setRunning b).fault = s.fault := rfl
@[simp] theorem State.setRunning_now (b : Bool) : (s.setRunning b).now = s.now := rfl
@[simp] theorem State.setRunning_draws (b : Bool) : (s.setRunning b).draws = s.draws := rfl
@[simp] theorem State.setRunning_reg (b : Bool) (q : Reg) : (s.setRunning b).reg q = s.reg q := rfl

/-! ### setRomLen -/

@[simp] theorem State.setRomLen_v (n : Nat) : (s.setRomLen n).v = s.v := rfl
@[simp] theorem State.setRomLen_i (n : Nat) : (s.setRomLen n).i = s.i := rfl
@[simp] theorem State.setRomLen_pc (n : Nat) : (s.setRomLen n).pc = s.pc := rfl
@[simp] theorem State.setRomLen_stack (n : Nat) : (s.setRomLen n).stack = s.stack := rfl
@[simp] theorem State.setRomLen_sp (n : Nat) : (s.setRomLen n).sp = s.sp := rfl
@[simp] theorem State.setRomLen_mem (n : Nat) : (s.setRomLen n).mem = s.mem := rfl
@[simp] theorem State.setRomLen_disp (n : Nat) : (s.setRomLen n).disp = s.disp := rfl
@[simp] theorem State.setRomLen_dt (n : Nat) : (s.setRomLen n).dt = s.dt := rfl
@[simp] theorem State.setRomLen_st (n : Nat) : (s.setRomLen n).st = s.st := rfl
@[simp] theorem State.setRomLen_keys (n : Nat) : (s.setRomLen n).keys = s.keys := rfl
@[simp] theorem State.setRomLen_wait (n : Nat) : (s.setRomLen n).wait = s.wait := rfl
@[simp] theorem State.setRomLen_rkey (n : Nat) : (s.setRomLen n).rkey = s.rkey := rfl
@[simp] theorem State.setRomLen_running (n : Nat) : (s.setRomLen n).running = s.running := rfl
@[simp] theorem State.setRomLen_romLen (n : Nat) : (s.setRomLen n).romLen = n := rfl
@[simp] theorem State.setRomLen_tLast (n : Nat) : (s.setRomLen n).tLast = s.tLast := rfl
@[simp] theorem State.setRomLen_fault (n : Nat) : (s.setRomLen n).fault = s.fault := rfl
@[simp] theorem State.setRomLen_now (n : Nat) : (s.setRomLen n).now = s.now := rfl
@[simp] theorem State.setRomLen_draws (n : Nat) : (s.setRomLen n).draws = s.draws := rfl
@[simp] theorem State.setRomLen_reg (n : Nat) (q : Reg) : (s.setRomLen n).reg q = s.reg q := rfl

/-! ### setTLast -/

@[simp] theorem State.setTLast_v (t : Nat) : (s.setTLast t).v = s.v := rfl
@[simp] theorem State.setTLast_i (t : Nat) : (s.setTLast t).i = s.i := rfl
@[simp] theorem State.setTLast_pc (t : Nat) : (s.setTLast t).pc = s.pc := rfl
@[simp] theorem State.setTLast_stack (t : Nat) : (s.setTLast t).stack = s.stack := rfl
@[simp] theorem State.setTLast_sp (t : Nat) : (s.setTLast t).sp = s.sp := rfl
@[simp] theorem State.setTLast_mem (t : Nat) : (s.setTLast t).mem = s.mem := rfl
@[simp] theorem State.setTLast_disp (t : Nat) : (s.setTLast t).disp = s.disp := rfl
@[simp] theorem State.setTLast_dt (t : Nat) : (s.setTLast t).dt = s.dt := rfl
@[simp] theorem State.setTLast_st (t : Nat) : (s.setTLast t).st = s.st := rfl
@[simp] theorem State.setTLast_keys (t : Nat) : (s.setTLast t).keys = s.keys := rfl
@[simp] theorem State.setTLast_wait (t : Nat) : (s.setTLast t).wait = s.wait := rfl
@[simp] theorem State.setTLast_rkey (t : Nat) : (s.setTLast t).rkey = s.rkey := rfl
@[simp] theorem State.setTLast_running (t : Nat) : (s.setTLast t).running = s.running := rfl
@[simp] theorem State.setTLast_romLen (t : Nat) : (s.setTLast t).romLen = s.romLen := rfl
@[simp] theorem State.setTLast_tLast (t : Nat) : (s.setTLast t).tLast = t := rfl
@[simp] theorem State.setTLast_fault (t : Nat) : (s.setTLast t).fault = s.fault := rfl
@[simp] theorem State.setTLast_now (t : Nat) : (s.setTLast t).now = s.now := rfl
@[simp] theorem State.setTLast_draws (t : Nat) : (s.setTLast t).draws = s.draws := rfl
@[simp] theorem State.setTLast_reg (t : Nat) (q : Reg) : (s.setTLast t).reg q = s.reg q := rfl

/-! ### setFault -/

@[simp] theorem State.setFault_v (f : Option FaultRecord) : (s.setFault f).v = s.v := rfl
@[simp] theorem State.setFault_i (f : Option FaultRecord) : (s.setFault f).i = s.i := rfl
@[simp] theorem State.setFault_pc (f : Option FaultRecord) : (s.setFault f).pc = s.pc := rfl
@[simp] theorem State.setFault_stack (f : Option FaultRecord) : (s.setFault f).stack = s.stack := rfl
@[simp] theorem State.setFault_sp (f : Option FaultRecord) : (s.setFault f).sp = s.sp := rfl
@[simp] theorem State.setFault_mem (f : Option FaultRecord) : (s.setFault f).mem = s.mem := rfl
@[simp] theorem State.setFault_disp (f : Option FaultRecord) : (s.setFault f).disp = s.disp := rfl
@[simp] theorem State.setFault_dt (f : Option FaultRecord) : (s.setFault f).dt = s.dt := rfl
@[simp] theorem State.setFault_st (f : Option FaultRecord) : (s.setFault f).st = s.st := rfl
@[simp] theorem State.setFault_keys (f : Option FaultRecord) : (s.setFault f).keys = s.keys := rfl
@[simp] theorem State.setFault_wait (f : Option FaultRecord) : (s.setFault f).wait = s.wait := rfl
@[simp] theorem State.setFault_rkey (f : Option FaultRecord) : (s.setFault f).rkey = s.rkey := rfl
@[simp] theorem State.setFault_running (f : Option FaultRecord) : (s.setFault f).running = s.running := rfl
@[simp] theorem State.setFault_romLen (f : Option FaultRecord) : (s.setFault f).romLen = s.romLen := rfl
@[simp] theorem State.setFault_tLast (f : Option FaultRecord) : (s.setFault f).tLast = s.tLast := rfl
@[simp] theorem State.setFault_fault (f : Option FaultRecord) : (s.setFault f).fault = f := rfl
@[simp] theorem State.setFault_now (f : Option FaultRecord) : (s.setFault f).now = s.now := rfl
@[simp] theorem State.setFault_draws (f : Option FaultRecord) : (s.setFault f).draws = s.draws := rfl
@[simp] theorem State.setFault_reg (f : Option FaultRecord) (q : Reg) : (s.setFault f).reg q = s.reg q := rfl

/-! ### setNow -/

@[simp] theorem State.setNow_v (t : Nat) : (s.setNow t).v = s.v := rfl
@[simp] theorem State.setNow_i (t : Nat) : (s.setNow t).i = s.i := rfl
@[simp] theorem State.setNow_pc (t : Nat) : (s.setNow t).pc = s.pc := rfl
@[simp] theorem State.setNow_stack (t : Nat) : (s.setNow t).stack = s.stack := rfl
@[simp] theorem State.setNow_sp (t : Nat) : (s.setNow t).sp = s.sp := rfl
@[simp] theorem State.setNow_mem (t : Nat) : (s.setNow t).mem = s.mem := rfl
@[simp] theorem State.setNow_disp (t : Nat) : (s.setNow t).disp = s.disp := rfl
@[simp] theorem State.setNow_dt (t : Nat) : (s.setNow t).dt = s.dt := rfl
@[simp] theorem State.setNow_st (t : Nat) : (s.setNow t).st = s.st := rfl
@[simp] theorem State.setNow_keys (t : Nat) : (s.setNow t).keys = s.keys := rfl
@[simp] theorem State.setNow_wait (t : Nat) : (s.setNow t).wait = s.wait := rfl
@[simp] theorem State.setNow_rkey (t : Nat) : (s.setNow t).rkey = s.rkey := rfl
@[simp] theorem State.setNow_running (t : Nat) : (s.setNow t).running = s.running := rfl
@[simp] theorem State.setNow_romLen (t : Nat) : (s.setNow t).romLen = s.romLen := rfl
@[simp] theorem State.setNow_tLast (t : Nat) : (s.setNow t).tLast = s.tLast := rfl
@[simp] theorem State.setNow_fault (t : Nat) : (s.setNow t).fault = s.fault := rfl
@[simp] theorem State.setNow_now (t : Nat) : (s.setNow t).now = t := rfl
@[simp] theorem State.setNow_draws (t : Nat) : (s.setNow t).draws = s.draws := rfl
@[simp] theorem State.setNow_reg (t : Nat) (q : Reg) : (s.setNow t).reg q = s.reg q := rfl

/-! ### setDraws -/

@[simp] theorem State.setDraws_v (n : Nat) : (s.setDraws n).v = s.v := rfl
@[simp] theorem State.setDraws_i (n : Nat) : (s.setDraws n).i = s.i := rfl
@[simp] theorem State.setDraws_pc (n : Nat) : (s.setDraws n).pc = s.pc := rfl
@[simp] theorem State.setDraws_stack (n : Nat) : (s.setDraws n).stack = s.stack := rfl
@[simp] theorem State.setDraws_sp (n : Nat) : (s.setDraws n).sp = s.sp := rfl
@[simp] theorem State.setDraws_mem (n : Nat) : (s.setDraws n).mem = s.mem := rfl
@[simp] theorem State.setDraws_disp (n : Nat) : (s.setDraws n).disp = s.disp := rfl
@[simp] theorem State.setDraws_dt (n : Nat) : (s.setDraws n).dt = s.dt := rfl
@[simp] theorem State.setDraws_st (n : Nat) : (s.setDraws n).st = s.st := rfl
@[simp] theorem State.setDraws_keys (n : Nat) : (s.setDraws n).keys = s.keys := rfl
@[simp] theorem State.setDraws_wait (n : Nat) : (s.setDraws n).wait = s.wait := rfl
@[simp] theorem State.setDraws_rkey (n : Nat) : (s.setDraws n).rkey = s.rkey := rfl
@[simp] theorem State.setDraws_running (n : Nat) : (s.setDraws n).running = s.running := rfl
@[simp] theorem State.setDraws_romLen (n : Nat) : (s.setDraws n).romLen = s.romLen := rfl
@[simp] theorem State.setDraws_tLast (n : Nat) : (s.setDraws n).tLast = s.tLast := rfl
@[simp] theorem State.setDraws_fault (n : Nat) : (s.setDraws n).fault = s.fault := rfl
@[simp] theorem State.setDraws_now (n : Nat) : (s.setDraws n).now = s.now := rfl
@[simp] theorem State.setDraws_draws (n : Nat) : (s.setDraws n).draws = n := rfl
@[simp] theorem State.setDraws_reg (n : Nat) (q : Reg) : (s.setDraws n).reg q = s.reg q := rfl

/-! ### Register reads -/

@[simp] theorem State.setRegs_reg (v : Vector Byte 16) (q : Reg) : (s.setRegs v).reg q = v[q] := rfl

theorem State.setReg_reg (r q : Reg) (b : Byte) : (s.setReg r b).reg q = if q = r then b else s.reg q := by
  simp only [State.reg, State.setReg, Fin.getElem_fin, Vector.getElem_set, Fin.ext_iff, eq_comm]

@[simp] theorem State.setReg_reg_self (r : Reg) (b : Byte) : (s.setReg r b).reg r = b := by
  simp [State.setReg_reg]

@[simp] theorem State.setReg_reg_ne {r q : Reg} (h : q ≠ r) (b : Byte) : (s.setReg r b).reg q = s.reg q := by
  simp [State.setReg_reg, h]

/-! ### Composed updates -/

@[simp] theorem State.advance_eq : s.advance = s.setPc (s.pc + 2) := rfl

@[simp] theorem State.skipIf_eq (c : Bool) : s.skipIf c = s.setPc (if c then s.pc + 4 else s.pc + 2) := rfl

@[simp] theorem State.raise_eq (k : FaultKind) : s.raise k = s.setFault (some ⟨k, s.pc⟩) := rfl

@[simp] theorem State.writeWithFlag_eq (x : Reg) (p : Byte × Byte) :
    s.writeWithFlag x p = (s.setReg x p.1).setReg vf p.2 := rfl

end Sys2Proof.Machine
end

