-- ==== Sys2Proof/Laws/Ops.lean ====
section
/-! SUPPORT. All that each shared operation can answer: the end of an instruction, the stack, the operand forms, the flags and the
register blocks. -/

namespace Sys2Proof.Machine

/-! ### The end of an instruction -/

@[simp] theorem complete_ok (s t : State) : complete s (.ok t) = .next t := rfl

@[simp] theorem complete_error (s : State) (k : FaultKind) : complete s (.error k) = .next (s.raise k) := rfl

/-- An instruction that ends through `complete` answers a next state: the one it wrote, or the fault raised. -/
theorem complete_cases {s t : State} {r : Except FaultKind State} (h : complete s r = .next t) :
    r = .ok t ∨ ∃ k, r = .error k ∧ t = s.raise k := by
  cases r with
  | ok u => exact .inl (by simpa using h)
  | error k => exact .inr ⟨k, rfl, by simpa using h.symm⟩

/-! ### The call stack -/

theorem State.push_ok (s : State) (w : Word) (h : s.sp.val < 16) :
    s.push w = .ok (s.setStack (s.stack.set s.sp.val w) ⟨s.sp.val + 1, by omega⟩) := by
  simp [State.push, h]

theorem State.push_full (s : State) (w : Word) (h : s.sp.val = 16) : s.push w = .error .stackOverflow := by
  simp [State.push, h]

theorem State.pop_ok (s : State) (h : 0 < s.sp.val) :
    s.pop = .ok (s.stack[s.sp.val - 1]'(by omega), s.setStack s.stack ⟨s.sp.val - 1, by omega⟩) := by
  simp [State.pop, h]

theorem State.pop_empty (s : State) (h : s.sp.val = 0) : s.pop = .error .stackUnderflow := by
  simp [State.pop, h]

/-! ### Operand forms -/

@[simp] theorem zext16_toNat (addr : Addr12) : (zext16 addr).toNat = addr.toNat := by
  have := addr.isLt
  simp [zext16]
  omega

theorem jumpTarget_ok {addr : Addr12} {v0 : Byte} (h : addr.toNat + v0.toNat ≤ 0xFFF) :
    jumpTarget addr v0 = .ok (BitVec.ofNat 16 (addr.toNat + v0.toNat)) := by
  simp [jumpTarget, Nat.not_lt.2 h]

theorem jumpTarget_error {addr : Addr12} {v0 : Byte} (h : 0xFFF < addr.toNat + v0.toNat) :
    jumpTarget addr v0 = .error (.jumpOutOfRange (addr.toNat + v0.toNat)) := by
  simp [jumpTarget, h]

theorem indexSum_ok {i : Word} {v : Byte} (h : i.toNat + v.toNat ≤ 0xFFFF) :
    indexSum i v = .ok (BitVec.ofNat 16 (i.toNat + v.toNat)) := by
  simp [indexSum, Nat.not_lt.2 h]

theorem indexSum_error {i : Word} {v : Byte} (h : 0xFFFF < i.toNat + v.toNat) :
    indexSum i v = .error (.indexOverflow (i.toNat + v.toNat)) := by
  simp [indexSum, h]

@[simp] theorem glyphAddress_toNat (v : Byte) : (glyphAddress v).toNat = 5 * (v.toNat % 16) := by
  simp only [glyphAddress, Config.glyphBytes, BitVec.toNat_ofNat]
  omega

theorem keyPressed_ok {s : State} {x : Reg} (h : (s.reg x).toNat < 16) :
    keyPressed s x = .ok s.keys[(s.reg x).toNat] := by
  simp [keyPressed, keyIndex, h, bind, Except.bind]

theorem keyPressed_error {s : State} {x : Reg} (h : 16 ≤ (s.reg x).toNat) :
    keyPressed s x = .error (.keyIndexOutOfRange (s.reg x)) := by
  simp [keyPressed, keyIndex, Nat.not_lt.2 h, bind, Except.bind]

@[simp] theorem bcdDigits_length (v : Byte) : (bcdDigits v).length = 3 := rfl

@[simp] theorem regsUpTo_length (s : State) (x : Reg) : (regsUpTo s x).length = x.val + 1 := by
  simp [regsUpTo]

theorem regsUpTo_getD (s : State) {x r : Reg} (h : r ≤ x) : (regsUpTo s x).getD r.val 0 = s.reg r := by
  have hr : r.val < x.val + 1 := Nat.lt_succ_of_le h
  simp [regsUpTo, State.reg, hr]

theorem regsWith_getElem (s : State) (bytes : List Byte) (j : Nat) (h : j < 16) :
    (regsWith s bytes)[j] = bytes.getD j s.v[j] := by
  simp [regsWith]

/-! ### Flags -/

@[simp] theorem flagByte_toNat (b : Bool) : (flagByte b).toNat = if b then 1 else 0 := by
  cases b <;> rfl

theorem addFlag_result (a b : Byte) : (addFlag a b).1.toNat = (a.toNat + b.toNat) % 256 := by
  simp [addFlag]

theorem addFlag_flag (a b : Byte) : (addFlag a b).2.toNat = if 255 < a.toNat + b.toNat then 1 else 0 := by
  simp [addFlag]

theorem subFlag_result (a b : Byte) : (subFlag a b).1.toNat = (a.toNat + 256 - b.toNat) % 256 := by
  have ha := a.isLt
  have hb := b.isLt
  simp only [subFlag]
  split <;> simp only [BitVec.toNat_ofNat] <;> omega

theorem subFlag_flag (a b : Byte) : (subFlag a b).2.toNat = if b.toNat ≤ a.toNat then 1 else 0 := by
  simp only [subFlag]
  split <;> simp

theorem shrFlag_result (v : Byte) : (shrFlag v).1.toNat = v.toNat / 2 := by
  simp [shrFlag, Nat.shiftRight_eq_div_pow]

theorem shrFlag_flag (v : Byte) : (shrFlag v).2.toNat = v.toNat % 2 := by
  simp [shrFlag, Nat.and_one_is_mod]

theorem shlFlag_result (v : Byte) : (shlFlag v).1.toNat = v.toNat * 2 % 256 := by
  simp [shlFlag, Nat.shiftLeft_eq]

theorem shlFlag_flag (v : Byte) : (shlFlag v).2.toNat = v.toNat / 128 := by
  simp [shlFlag, Nat.shiftRight_eq_div_pow]

end Sys2Proof.Machine
end

