-- ==== Sys2Proof/Laws/Display.lean ====
section
/-! SUPPORT. What the sprite compositor does, with clipping (43_display.md R203): one cell, one bit, one byte, all bytes. Each loop's law
gives every cell after it, and when it reports a collision. -/

namespace Sys2Proof.Machine

/-- Toggling a cell changes that cell alone. -/
theorem toggleCell_get (d : Display) (c c' : Fin 64) (r r' : Fin 32) :
    (toggleCell d c r)[c'][r'] = if c' = c ∧ r' = r then !d[c'][r'] else d[c'][r'] := by
  unfold toggleCell
  simp only [Fin.getElem_fin, Vector.getElem_set, Fin.ext_iff]
  by_cases hc : c.val = c'.val
  · have hc' : c = c' := Fin.ext hc
    subst hc'
    simp only [if_true, Vector.getElem_set, true_and]
    by_cases hr : r.val = r'.val
    · have hr' : r = r' := Fin.ext hr
      subst hr'
      simp
    · simp [hr, Ne.symm hr]
  · simp [hc, Ne.symm hc]

theorem onAxis_inside (wrap : Bool) {lim : Nat} [NeZero lim] {p : Nat} (h : p < lim) : onAxis wrap lim p = some ⟨p, h⟩ := by
  simp [onAxis, h]

/-- With clipping, a coordinate off the axis is dropped. -/
theorem onAxis_outside {lim : Nat} [NeZero lim] {p : Nat} (h : ¬ p < lim) : onAxis false lim p = none := by
  simp [onAxis, h]

theorem plotBit_inside {c r : Nat} (hc : c < 64) (hr : r < 32) (acc : Display × Bool) :
    plotBit false c r acc = (toggleCell acc.1 ⟨c, hc⟩ ⟨r, hr⟩, acc.2 || acc.1[c][r]) := by
  simp [plotBit, onAxis_inside false hc, onAxis_inside false hr]

theorem plotBit_outside {c r : Nat} (h : ¬ (c < 64 ∧ r < 32)) (acc : Display × Bool) : plotBit false c r acc = acc := by
  unfold plotBit
  by_cases hc : c < 64
  · rw [onAxis_inside false hc, onAxis_outside (fun hr => h ⟨hc, hr⟩)]
  · rw [onAxis_outside hc]

/-- From the first to the second pair of a display and a collision flag, exactly the cells of `p` toggled, and the flag was raised exactly
if one of them was lit. -/
structure Toggles (p : Fin 64 → Fin 32 → Prop) (a b : Display × Bool) : Prop where
  covered : ∀ c r, p c r → b.1[c][r] = !a.1[c][r]
  uncovered : ∀ c r, ¬ p c r → b.1[c][r] = a.1[c][r]
  collision : b.2 = true ↔ a.2 = true ∨ ∃ c r, p c r ∧ a.1[c][r] = true

theorem Toggles.none {p : Fin 64 → Fin 32 → Prop} (h : ∀ c r, ¬ p c r) (a : Display × Bool) : Toggles p a a :=
  ⟨fun c r hp => absurd hp (h c r), fun _ _ _ => rfl, by simp [h]⟩

/-- Two draws in a row that cover different cells toggle the cells of both. -/
theorem Toggles.append {p q pq : Fin 64 → Fin 32 → Prop} {a b d : Display × Bool} (h1 : Toggles p a b) (h2 : Toggles q b d)
    (hpq : ∀ c r, pq c r ↔ p c r ∨ q c r) (hdisj : ∀ c r, p c r → ¬ q c r) : Toggles pq a d := by
  have hq : ∀ c r, q c r → b.1[c][r] = a.1[c][r] := fun c r hqc => h1.uncovered c r fun hp => hdisj c r hp hqc
  refine ⟨?_, ?_, ?_⟩
  · intro c r h
    rcases (hpq c r).1 h with hp | hqc
    · rw [h2.uncovered c r (hdisj c r hp), h1.covered c r hp]
    · rw [h2.covered c r hqc, hq c r hqc]
  · intro c r h
    rw [h2.uncovered c r fun hqc => h ((hpq c r).2 (.inr hqc)), h1.uncovered c r fun hp => h ((hpq c r).2 (.inl hp))]
  · rw [h2.collision, h1.collision]
    constructor
    · rintro ((h | ⟨c, r, h, hl⟩) | ⟨c, r, h, hl⟩)
      · exact .inl h
      · exact .inr ⟨c, r, (hpq c r).2 (.inl h), hl⟩
      · exact .inr ⟨c, r, (hpq c r).2 (.inr h), hq c r h ▸ hl⟩
    · rintro (h | ⟨c, r, h, hl⟩)
      · exact .inl (.inl h)
      · rcases (hpq c r).1 h with h | h
        · exact .inl (.inr ⟨c, r, h, hl⟩)
        · exact .inr ⟨c, r, h, (hq c r h).symm ▸ hl⟩

/-- One 1 bit toggles its cell. -/
theorem plotBit_toggles (acc : Display × Bool) (c r : Nat) :
    Toggles (fun c' r' => c'.val = c ∧ r'.val = r) acc (plotBit false c r acc) := by
  by_cases h : c < 64 ∧ r < 32
  · rw [plotBit_inside h.1 h.2]
    refine ⟨?_, ?_, ?_⟩
    · rintro c' r' ⟨rfl, rfl⟩
      rw [toggleCell_get, if_pos ⟨rfl, rfl⟩]
    · intro c' r' hn
      rw [toggleCell_get, if_neg (by simpa only [Fin.ext_iff] using hn)]
    · simp only [Bool.or_eq_true]
      refine or_congr_right ⟨fun hl => ⟨⟨c, h.1⟩, ⟨r, h.2⟩, ⟨rfl, rfl⟩, hl⟩, ?_⟩
      rintro ⟨c', r', ⟨rfl, rfl⟩, hl⟩
      exact hl
  · rw [plotBit_outside h]
    refine Toggles.none ?_ acc
    rintro c' r' ⟨rfl, rfl⟩
    exact h ⟨c'.isLt, r'.isLt⟩

/-- The cell is under a 1 bit among the first m bits of byte b drawn at column ox of row r. -/
def ByteCovers (ox r : Nat) (b : Byte) (m : Nat) (c : Fin 64) (r' : Fin 32) : Prop :=
  r'.val = r ∧ ox ≤ c.val ∧ c.val < ox + m ∧ b.getLsbD (7 - (c.val - ox)) = true

/-- The cell is under a 1 bit of the bytes drawn from row r at column ox. -/
def BytesCover (ox r : Nat) (bytes : List Byte) (c : Fin 64) (r' : Fin 32) : Prop :=
  r ≤ r'.val ∧ r'.val < r + bytes.length ∧ ox ≤ c.val ∧ c.val < ox + 8 ∧
    (bytes.getD (r'.val - r) 0).getLsbD (7 - (c.val - ox)) = true

/-- The first m bits of a byte. -/
theorem drawBits_toggles (ox r : Nat) (b : Byte) (acc : Display × Bool) (m : Nat) :
    Toggles (ByteCovers ox r b m) acc ((List.range m).foldl (drawBit false ox r b) acc) := by
  induction m with
  | zero =>
    refine Toggles.none ?_ acc
    rintro c r' ⟨-, h2, h3, -⟩
    omega
  | succ m ih =>
    rw [List.range_succ, List.foldl_append, List.foldl_cons, List.foldl_nil]
    unfold drawBit
    by_cases hb : b.getLsbD (7 - m) = true
    · rw [if_pos hb]
      refine ih.append (plotBit_toggles _ (ox + m) r) ?_ ?_
      · intro c r'
        constructor
        · rintro ⟨h1, h2, h3, h4⟩
          by_cases hc : c.val = ox + m
          · exact .inr ⟨hc, h1⟩
          · exact .inl ⟨h1, h2, by omega, h4⟩
        · rintro (⟨h1, h2, h3, h4⟩ | ⟨h1, h2⟩)
          · exact ⟨h1, h2, by omega, h4⟩
          · exact ⟨h2, by omega, by omega, by rw [show c.val - ox = m by omega]; exact hb⟩
      · rintro c r' ⟨-, -, h3, -⟩ ⟨h, -⟩
        omega
    · rw [if_neg hb]
      refine ih.append (Toggles.none (p := fun _ _ => False) (fun _ _ => id) _) ?_ (fun _ _ _ => id)
      intro c r'
      constructor
      · rintro ⟨h1, h2, h3, h4⟩
        refine .inl ⟨h1, h2, ?_, h4⟩
        by_contra hc
        rw [show c.val - ox = m by omega] at h4
        exact hb h4
      · rintro (⟨h1, h2, h3, h4⟩ | h)
        · exact ⟨h1, h2, by omega, h4⟩
        · exact h.elim

/-- A sprite's bytes: all that the compositor does. -/
theorem drawBytes_toggles (ox : Nat) (bytes : List Byte) (r : Nat) (acc : Display × Bool) :
    Toggles (BytesCover ox r bytes) acc (drawBytes false ox r bytes acc) := by
  induction bytes generalizing r acc with
  | nil =>
    refine Toggles.none ?_ acc
    rintro c r' ⟨h1, h2, -⟩
    rw [List.length_nil] at h2
    omega
  | cons b rest ih =>
    refine (drawBits_toggles ox r b acc 8).append (ih (r + 1) _) ?_ ?_
    · intro c r'
      simp only [BytesCover, ByteCovers, List.length_cons]
      by_cases hr : r'.val = r
      · subst hr
        simp only [Nat.sub_self, List.getD_cons_zero]
        constructor
        · rintro ⟨-, -, h3, h4, h5⟩
          exact .inl ⟨trivial, h3, h4, h5⟩
        · rintro (⟨-, h3, h4, h5⟩ | ⟨h, -⟩)
          · exact ⟨by omega, by omega, h3, h4, h5⟩
          · omega
      · constructor
        · rintro ⟨h1, h2, h3, h4, h5⟩
          rw [show r'.val - r = (r'.val - (r + 1)) + 1 by omega, List.getD_cons_succ] at h5
          exact .inr ⟨by omega, by omega, h3, h4, h5⟩
        · rintro (⟨h, -⟩ | ⟨h1, h2, h3, h4, h5⟩)
          · exact absurd h hr
          · refine ⟨by omega, by omega, h3, h4, ?_⟩
            rw [show r'.val - r = (r'.val - (r + 1)) + 1 by omega, List.getD_cons_succ]
            exact h5
    · rintro c r' ⟨h, -⟩ ⟨h1, -⟩
      omega

end Sys2Proof.Machine
end

