-- ==== Sys2Proof/Laws/Step.lean ====
section
/-! SUPPORT. All that a step can do, said once: the timer sub-step, the key wait, fetch, dispatch, and the cases of a step; and the
reading of frames part by part. -/

namespace Sys2Proof.Machine

/-! ### Frames -/

theorem ChangesOnly.same {ps : List Part} {s t : State} (h : ChangesOnly ps s t) {p : Part} (hp : p ∉ ps) :
    p.Same s t := h p hp

theorem Part.same_refl (s : State) (p : Part) : p.Same s s := by
  cases p <;> rfl

theorem changesOnly_refl (ps : List Part) (s : State) : ChangesOnly ps s s := fun p _ => p.same_refl s

/-- Raising a fault changes the record only (60_exceptions.md R261). -/
theorem changesOnly_raise (s : State) (k : FaultKind) : ChangesOnly [.fault] s (s.raise k) := by
  intro p hp
  cases p <;> first | rfl | exact absurd List.mem_cons_self hp

/-! ### The timer sub-step (40_cycle.md R102) -/

/-- The sub-step either does nothing or ticks both timers and records the time. -/
theorem timerSubStep_cases (period now : Nat) (s : State) :
    timerSubStep period now s = s ∨
      timerSubStep period now s = ((s.setDt (countDown s.dt)).setSt (countDown s.st)).setTLast now := by
  unfold timerSubStep
  split <;> simp

theorem countDown_toNat (b : Byte) : (countDown b).toNat = b.toNat - 1 := by
  unfold countDown
  split
  · subst_vars; rfl
  · rename_i h
    have hb : b.toNat ≠ 0 := fun h0 => h (BitVec.eq_of_toNat_eq (by simpa using h0))
    rw [BitVec.toNat_sub_of_le (by simp [BitVec.le_def]; omega)]
    rfl

/-- The sub-step changes the timers and the timestamp only. -/
theorem changesOnly_timerSubStep (period now : Nat) (s : State) :
    ChangesOnly [.dt, .st, .tLast] s (timerSubStep period now s) := by
  rcases timerSubStep_cases period now s with h | h <;> rw [h]
  · exact changesOnly_refl _ s
  · intro p hp
    cases p <;> first | rfl | simp at hp

section
variable (s : State)

@[simp] theorem State.ticked_v : s.ticked.v = s.v := by unfold State.ticked timerSubStep; split <;> rfl
@[simp] theorem State.ticked_reg (q : Reg) : s.ticked.reg q = s.reg q := by simp only [State.reg, State.ticked_v]
@[simp] theorem State.ticked_i : s.ticked.i = s.i := by unfold State.ticked timerSubStep; split <;> rfl
@[simp] theorem State.ticked_pc : s.ticked.pc = s.pc := by unfold State.ticked timerSubStep; split <;> rfl
@[simp] theorem State.ticked_stack : s.ticked.stack = s.stack := by unfold State.ticked timerSubStep; split <;> rfl
@[simp] theorem State.ticked_sp : s.ticked.sp = s.sp := by unfold State.ticked timerSubStep; split <;> rfl
@[simp] theorem State.ticked_mem : s.ticked.mem = s.mem := by unfold State.ticked timerSubStep; split <;> rfl
@[simp] theorem State.ticked_disp : s.ticked.disp = s.disp := by unfold State.ticked timerSubStep; split <;> rfl
@[simp] theorem State.ticked_keys : s.ticked.keys = s.keys := by unfold State.ticked timerSubStep; split <;> rfl
@[simp] theorem State.ticked_wait : s.ticked.wait = s.wait := by unfold State.ticked timerSubStep; split <;> rfl
@[simp] theorem State.ticked_rkey : s.ticked.rkey = s.rkey := by unfold State.ticked timerSubStep; split <;> rfl
@[simp] theorem State.ticked_running : s.ticked.running = s.running := by unfold State.ticked timerSubStep; split <;> rfl
@[simp] theorem State.ticked_romLen : s.ticked.romLen = s.romLen := by unfold State.ticked timerSubStep; split <;> rfl
@[simp] theorem State.ticked_fault : s.ticked.fault = s.fault := by unfold State.ticked timerSubStep; split <;> rfl
@[simp] theorem State.ticked_now : s.ticked.now = s.now := by unfold State.ticked timerSubStep; split <;> rfl
@[simp] theorem State.ticked_draws : s.ticked.draws = s.draws := by unfold State.ticked timerSubStep; split <;> rfl

end

/-! ### Fetch and dispatch (40_cycle.md R107, R108, R111) -/

theorem endOfRun_iff (s : State) : endOfRun s = true ↔ 4094 ≤ s.pc.toNat ∨ 0x200 + s.romLen ≤ s.pc.toNat := by
  unfold endOfRun Config.pcLimit Config.programBase
  rw [Bool.or_eq_true, decide_eq_true_iff, decide_eq_true_iff]

theorem wordOfBytes_toNat (hi lo : Byte) : (wordOfBytes hi lo).toNat = hi.toNat * 256 + lo.toNat := by
  rw [wordOfBytes, BitVec.toNat_append, ← Nat.shiftLeft_add_eq_or_of_lt lo.isLt]
  simp [Nat.shiftLeft_eq]

/-- Where both bytes are inside memory, a fetch gives the word at pc. -/
theorem fetchWord_ok {s : State} (h : s.pc.toNat < 4095) : fetchWord s = .ok s.wordAtPc := by
  have h0 : s.pc.toNat < 4096 := by omega
  have h1 : s.pc.toNat + 1 < 4096 := by omega
  simp only [fetchWord, memRead_eq, h0, h1, if_true, bind, Except.bind, State.wordAtPc]
  congr 1
  apply BitVec.eq_of_toNat_eq
  rw [wordOfBytes_toNat, BitVec.toNat_ofNat]
  have a := (Memory.byteAt s.mem s.pc.toNat).isLt
  have b := (Memory.byteAt s.mem (s.pc.toNat + 1)).isLt
  omega

/-! ### The cases of a step (40_cycle.md R101) -/

theorem step_faulted {s : State} {f : FaultRecord} (h : s.fault = some f) : step s = .fault (.latched f) := by
  simp [step, stepAt, h]

theorem step_halted {s : State} (hf : s.fault = none) (hr : s.running = false) : step s = .next s := by
  simp [step, stepAt, hf, hr]

theorem step_live {s : State} (hf : s.fault = none) (hr : s.running = true) : step s = afterTimers s.ticked := by
  simp [step, stepAt, hf, hr, State.ticked]

theorem step_waiting {s : State} {r : Reg} (hf : s.fault = none) (hr : s.running = true) (hw : s.wait = some r) :
    step s = .next (waitStep r s.ticked) := by
  simp [step_live hf hr, afterTimers, hw]

theorem step_ending {s : State} (hf : s.fault = none) (hr : s.running = true) (hw : s.wait = none)
    (h : 4094 ≤ s.pc.toNat ∨ 0x200 + s.romLen ≤ s.pc.toNat) : step s = .next (s.ticked.setRunning false) := by
  have he : endOfRun s.ticked = true := (endOfRun_iff _).2 (by simpa using h)
  simp [step_live hf hr, afterTimers, hw, he]

/-- A step that fetches executes its word. -/
theorem step_fetching {s : State} (h : s.Fetches) : step s = executeWord s.wordAtPc s.ticked := by
  obtain ⟨hf, hr, hw, hp, hl⟩ := h
  have he : endOfRun s.ticked = false := by
    rw [Bool.eq_false_iff, ne_eq, endOfRun_iff]
    simp only [State.ticked_pc, State.ticked_romLen]
    omega
  have hfetch := fetchWord_ok (s := s.ticked) (by rw [State.ticked_pc]; omega)
  simp only [State.wordAtPc, State.ticked_mem, State.ticked_pc] at hfetch
  simp [step_live hf hr, afterTimers, hw, he, runInstr, hfetch, State.wordAtPc]

/-- All that a step answering a next state can have done. -/
theorem step_cases {s t : State} (h : step s = .next t) :
    s.fault = none ∧
      ((s.running = false ∧ t = s) ∨
        (s.running = true ∧ (∃ r, s.wait = some r ∧ t = waitStep r s.ticked)) ∨
        (s.running = true ∧ s.wait = none ∧ (4094 ≤ s.pc.toNat ∨ 0x200 + s.romLen ≤ s.pc.toNat) ∧
          t = s.ticked.setRunning false) ∨
        (s.Fetches ∧ decodeWord s.wordAtPc = none ∧ t = s.ticked.raise (.invalidOpcode s.wordAtPc)) ∨
        (s.Fetches ∧ ∃ i, decodeWord s.wordAtPc = some i ∧ exec i s.ticked = .next t)) := by
  cases hf : s.fault with
  | some f => rw [step_faulted hf] at h; cases h
  | none =>
    refine ⟨rfl, ?_⟩
    cases hr : s.running with
    | false =>
      rw [step_halted hf hr] at h
      cases h
      exact .inl ⟨rfl, rfl⟩
    | true =>
      cases hw : s.wait with
      | some r =>
        rw [step_waiting hf hr hw] at h
        cases h
        exact .inr (.inl ⟨rfl, r, rfl, rfl⟩)
      | none =>
        by_cases he : 4094 ≤ s.pc.toNat ∨ 0x200 + s.romLen ≤ s.pc.toNat
        · rw [step_ending hf hr hw he] at h
          cases h
          exact .inr (.inr (.inl ⟨rfl, rfl, he, rfl⟩))
        · have hfetch : s.Fetches := ⟨hf, hr, hw, by omega, by omega⟩
          rw [step_fetching hfetch] at h
          unfold executeWord at h
          split at h
          · rename_i i hi
            exact .inr (.inr (.inr (.inr ⟨hfetch, i, hi, h⟩)))
          · rename_i hi
            cases h
            exact .inr (.inr (.inr (.inl ⟨hfetch, hi, rfl⟩)))

end Sys2Proof.Machine
end

