-- ==== Sys2Proof/Laws/Exec.lean ====
section
/-! SUPPORT. What every instruction's meaning can answer: always a next state, in which either no fault has been raised or nothing but the
fault record is written (60_exceptions.md R261). -/

namespace Sys2Proof.Machine

/-- Every instruction answers a next state. -/
theorem exec_answers_next (i : Instr) (s : State) : ∃ t, exec i s = .next t := by
  cases i <;> simp only [exec] <;> first | exact ⟨_, rfl⟩ | skip
  all_goals
    dsimp only [execCall, execRet, execSkp, execSknp, execJpV0, execDrw, execAddI, execLdB, execStoreRegs,
      execLoadRegs, complete]
    split <;> exact ⟨_, rfl⟩

theorem regsUpTo_ne_nil (s : State) (x : Reg) : regsUpTo s x ≠ [] := by
  intro h
  have := regsUpTo_length s x
  rw [h] at this
  cases this

theorem bcdDigits_ne_nil (v : Byte) : bcdDigits v ≠ [] := List.cons_ne_nil _ _

/-- An instruction leaves the fault record as it was, or raises one fault, its info in range, on the state it started from. -/
theorem exec_fault_cases {i : Instr} {s t : State} (h : exec i s = .next t) :
    t.fault = s.fault ∨ ∃ k : FaultKind, k.InfoInRange ∧ t = s.raise k := by
  cases i <;> simp only [exec] at h
  case call =>
    rename_i a
    by_cases hx : s.sp.val < 16
    · rw [execCall, State.push_ok _ _ hx] at h
      cases h
      exact .inl rfl
    · rw [execCall, State.push_full _ _ (by omega)] at h
      cases h
      exact .inr ⟨.stackOverflow, trivial, rfl⟩
  case ret =>
    by_cases hx : 0 < s.sp.val
    · rw [execRet, State.pop_ok _ hx] at h
      cases h
      exact .inl rfl
    · rw [execRet, State.pop_empty _ (by omega)] at h
      cases h
      exact .inr ⟨.stackUnderflow, trivial, rfl⟩
  case skp x =>
    by_cases hx : (s.reg x).toNat < 16
    · rw [execSkp, keyPressed_ok hx] at h
      cases h
      exact .inl rfl
    · rw [execSkp, keyPressed_error (by omega)] at h
      cases h
      exact .inr ⟨.keyIndexOutOfRange (s.reg x), (show 0xf < (s.reg x).toNat by omega), rfl⟩
  case sknp x =>
    by_cases hx : (s.reg x).toNat < 16
    · rw [execSknp, keyPressed_ok hx] at h
      cases h
      exact .inl rfl
    · rw [execSknp, keyPressed_error (by omega)] at h
      cases h
      exact .inr ⟨.keyIndexOutOfRange (s.reg x), (show 0xf < (s.reg x).toNat by omega), rfl⟩
  case jpV0 addr =>
    by_cases hx : addr.toNat + (s.reg 0).toNat ≤ 0xfff
    · rw [execJpV0, jumpTarget_ok hx] at h
      cases h
      exact .inl rfl
    · rw [execJpV0, jumpTarget_error (by omega)] at h
      cases h
      exact .inr ⟨_, (show 0xfff < _ by omega), rfl⟩
  case drw x y n =>
    by_cases hx : s.i.toNat + n.val ≤ 4096 ∨ n.val = 0
    · rw [execDrw, readBlock_ok _ hx] at h
      cases h
      exact .inl rfl
    · rw [execDrw, readBlock_error _ (by omega) (by omega)] at h
      cases h
      exact .inr ⟨_, (show 0xfff < _ by omega), rfl⟩
  case addI x =>
    by_cases hx : s.i.toNat + (s.reg x).toNat ≤ 0xffff
    · rw [execAddI, indexSum_ok hx] at h
      cases h
      exact .inl rfl
    · rw [execAddI, indexSum_error (by omega)] at h
      cases h
      exact .inr ⟨_, (show 0xffff < _ by omega), rfl⟩
  case ldB x =>
    by_cases h1 : s.i.toNat < 0x50
    · rw [execLdB, writeBlock_font _ h1 (bcdDigits_ne_nil _)] at h
      cases h
      exact .inr ⟨_, (show _ ≤ 0x4f by omega), rfl⟩
    · by_cases h2 : s.i.toNat + 3 ≤ 4096
      · rw [execLdB, writeBlock_ok _ (by omega) h2] at h
        cases h
        exact .inl rfl
      · rw [execLdB, writeBlock_above _ (by omega) (by rw [bcdDigits_length]; omega) (bcdDigits_ne_nil _)] at h
        cases h
        exact .inr ⟨_, (show 0xfff < _ by omega), rfl⟩
  case storeRegs x =>
    have hne := regsUpTo_ne_nil s x
    by_cases h1 : s.i.toNat < 0x50
    · rw [execStoreRegs, writeBlock_font _ h1 hne] at h
      cases h
      exact .inr ⟨_, (show _ ≤ 0x4f by omega), rfl⟩
    · by_cases h2 : s.i.toNat + (regsUpTo s x).length ≤ 4096
      · rw [execStoreRegs, writeBlock_ok _ (by omega) h2] at h
        cases h
        exact .inl rfl
      · rw [execStoreRegs, writeBlock_above _ (by omega) (by omega) hne] at h
        cases h
        exact .inr ⟨_, (show 0xfff < _ by omega), rfl⟩
  case loadRegs x =>
    by_cases hx : s.i.toNat + (x.val + 1) ≤ 4096 ∨ x.val + 1 = 0
    · rw [execLoadRegs, readBlock_ok _ hx] at h
      cases h
      exact .inl rfl
    · rw [execLoadRegs, readBlock_error _ (by omega) (by omega)] at h
      cases h
      exact .inr ⟨_, (show 0xfff < _ by omega), rfl⟩
  all_goals
    cases h
    exact .inl rfl

end Sys2Proof.Machine
end

