-- ==== Sys2Proof/Laws/PerInstr.lean ====
section
/-! SUPPORT. For every instruction, the fixed bits of its row of spec/opcode_table.json (30_encoding.md R82, R85): the word of the instruction
has them, and is not in R87's table of invalid words. -/

namespace Sys2Proof.Laws.TableRow

/-- A fixed bit-field of a row: bits hi .. lo hold the value. -/
structure Fixed where
  hi : Nat
  lo : Nat
  value : Nat

/-- The fixed bit-fields of the instruction's row, copied from the table. -/
def fixedFields : Instr → List Fixed
  | .nop => [⟨15, 0, 0x0⟩]
  | .cls => [⟨15, 0, 0xE0⟩]
  | .ret => [⟨15, 0, 0xEE⟩]
  | .jp _ => [⟨15, 12, 0x1⟩]
  | .call _ => [⟨15, 12, 0x2⟩]
  | .seImm _ _ => [⟨15, 12, 0x3⟩]
  | .sneImm _ _ => [⟨15, 12, 0x4⟩]
  | .seReg _ _ => [⟨15, 12, 0x5⟩, ⟨3, 0, 0x0⟩]
  | .ldImm _ _ => [⟨15, 12, 0x6⟩]
  | .addImm _ _ => [⟨15, 12, 0x7⟩]
  | .ldReg _ _ => [⟨15, 12, 0x8⟩, ⟨3, 0, 0x0⟩]
  | .orReg _ _ => [⟨15, 12, 0x8⟩, ⟨3, 0, 0x1⟩]
  | .andReg _ _ => [⟨15, 12, 0x8⟩, ⟨3, 0, 0x2⟩]
  | .xorReg _ _ => [⟨15, 12, 0x8⟩, ⟨3, 0, 0x3⟩]
  | .addReg _ _ => [⟨15, 12, 0x8⟩, ⟨3, 0, 0x4⟩]
  | .subReg _ _ => [⟨15, 12, 0x8⟩, ⟨3, 0, 0x5⟩]
  | .shr _ _ => [⟨15, 12, 0x8⟩, ⟨3, 0, 0x6⟩]
  | .subnReg _ _ => [⟨15, 12, 0x8⟩, ⟨3, 0, 0x7⟩]
  | .shl _ _ => [⟨15, 12, 0x8⟩, ⟨3, 0, 0xE⟩]
  | .sneReg _ _ => [⟨15, 12, 0x9⟩, ⟨3, 0, 0x0⟩]
  | .ldI _ => [⟨15, 12, 0xA⟩]
  | .jpV0 _ => [⟨15, 12, 0xB⟩]
  | .rnd _ _ => [⟨15, 12, 0xC⟩]
  | .drw _ _ _ => [⟨15, 12, 0xD⟩]
  | .skp _ => [⟨15, 12, 0xE⟩, ⟨7, 0, 0x9E⟩]
  | .sknp _ => [⟨15, 12, 0xE⟩, ⟨7, 0, 0xA1⟩]
  | .ldVxDt _ => [⟨15, 12, 0xF⟩, ⟨7, 0, 0x7⟩]
  | .ldVxK _ => [⟨15, 12, 0xF⟩, ⟨7, 0, 0xA⟩]
  | .ldDtVx _ => [⟨15, 12, 0xF⟩, ⟨7, 0, 0x15⟩]
  | .ldStVx _ => [⟨15, 12, 0xF⟩, ⟨7, 0, 0x18⟩]
  | .addI _ => [⟨15, 12, 0xF⟩, ⟨7, 0, 0x1E⟩]
  | .ldF _ => [⟨15, 12, 0xF⟩, ⟨7, 0, 0x29⟩]
  | .ldB _ => [⟨15, 12, 0xF⟩, ⟨7, 0, 0x33⟩]
  | .storeRegs _ => [⟨15, 12, 0xF⟩, ⟨7, 0, 0x55⟩]
  | .loadRegs _ => [⟨15, 12, 0xF⟩, ⟨7, 0, 0x65⟩]

/-- The word has the field. -/
def Holds (w : Word) (f : Fixed) : Prop := w.toNat / 2 ^ f.lo % 2 ^ (f.hi - f.lo + 1) = f.value

/-- The word of the instruction has its row's fixed bits, and is a valid word. -/
def Statement (i : Instr) : Prop :=
  (∀ f ∈ fixedFields i, Holds (encode i) f) ∧ WellFormed.word (encode i) = true

/-! ### The word of each format, as a number (R82) -/

theorem encodeA_toNat (major : Fin 16) (addr : Addr12) : (encodeA major addr).toNat = major.val * 4096 + addr.toNat := by
  have := major.isLt
  have := addr.isLt
  rw [encodeA, BitVec.toNat_ofNat]
  omega

theorem encodeXK_toNat (major : Fin 16) (x : Reg) (kk : Byte) :
    (encodeXK major x kk).toNat = major.val * 4096 + x.val * 256 + kk.toNat := by
  have := major.isLt
  have := x.isLt
  have := kk.isLt
  rw [encodeXK, BitVec.toNat_ofNat]
  omega

theorem encodeXYN_toNat (major : Fin 16) (x y : Reg) (n : Fin 16) :
    (encodeXYN major x y n).toNat = major.val * 4096 + x.val * 256 + y.val * 16 + n.val := by
  have := major.isLt
  have := x.isLt
  have := y.isLt
  have := n.isLt
  rw [encodeXYN, BitVec.toNat_ofNat]
  omega

/-! ### Validity by the major opcode (R87) -/

/-- The families without invalid words. -/
theorem valid_of_major {w : Word} (h : w.toNat / 4096 ∈ [0x1, 0x2, 0x3, 0x4, 0x6, 0x7, 0xA, 0xB, 0xC, 0xD]) :
    WellFormed.word w = true := by
  simp only [List.mem_cons, List.not_mem_nil, or_false] at h
  unfold WellFormed.word
  rcases h with h | h | h | h | h | h | h | h | h | h <;> rw [h] <;> rfl

theorem valid_registerSkip {w : Word} (h : w.toNat / 4096 = 0x5 ∨ w.toNat / 4096 = 0x9) (hn : w.toNat % 16 = 0) :
    WellFormed.word w = true := by
  unfold WellFormed.word
  rcases h with h | h <;> rw [h] <;> simp [WellFormed.familyRegisterSkip, hn]

theorem valid_eight {w : Word} {n : Nat} (h : w.toNat / 4096 = 0x8) (hn : w.toNat % 16 = n)
    (hv : n ∈ [0x0, 0x1, 0x2, 0x3, 0x4, 0x5, 0x6, 0x7, 0xE]) : WellFormed.word w = true := by
  simp only [List.mem_cons, List.not_mem_nil, or_false] at hv
  unfold WellFormed.word WellFormed.familyEight
  rw [h, hn]
  rcases hv with h | h | h | h | h | h | h | h | h <;> rw [h] <;> rfl

theorem valid_key {w : Word} {kk : Nat} (h : w.toNat / 4096 = 0xE) (hk : w.toNat % 256 = kk) (hv : kk ∈ [0x9E, 0xA1]) :
    WellFormed.word w = true := by
  unfold WellFormed.word WellFormed.familyKey
  rw [h, hk]
  simpa using hv

theorem valid_misc {w : Word} {kk : Nat} (h : w.toNat / 4096 = 0xF) (hk : w.toNat % 256 = kk)
    (hv : kk ∈ [0x07, 0x0A, 0x15, 0x18, 0x1E, 0x29, 0x33, 0x55, 0x65]) : WellFormed.word w = true := by
  unfold WellFormed.word WellFormed.familyMisc
  rw [h, hk]
  simpa using hv

/-! ### Each format -/

/-- A row that is one word. -/
theorem of_zero {i : Instr} (hv : WellFormed.word (encode i) = true) (hf : fixedFields i = [⟨15, 0, (encode i).toNat⟩]) :
    Statement i := by
  rw [Statement, hf]
  refine ⟨fun f hmem => ?_, hv⟩
  rw [List.mem_singleton.1 hmem, Holds, Nat.pow_zero, Nat.div_one]
  exact Nat.mod_eq_of_lt (encode i).isLt

/-- A row whose only fixed bits are the major opcode. -/
theorem of_major {i : Instr} {major : Nat} (h : (encode i).toNat / 4096 = major)
    (hm : major ∈ [0x1, 0x2, 0x3, 0x4, 0x6, 0x7, 0xA, 0xB, 0xC, 0xD]) (hf : fixedFields i = [⟨15, 12, major⟩]) :
    Statement i := by
  have hw := (encode i).isLt
  rw [Statement, hf]
  refine ⟨fun f hmem => ?_, valid_of_major (h ▸ hm)⟩
  rw [List.mem_singleton.1 hmem, Holds]
  norm_num
  omega

/-- A row with a major opcode and a field of fixed low bits. -/
theorem of_major_low {i : Instr} {major hi v : Nat} (h : (encode i).toNat / 4096 = major)
    (hlow : (encode i).toNat % 2 ^ (hi + 1) = v) (hf : fixedFields i = [⟨15, 12, major⟩, ⟨hi, 0, v⟩])
    (hv : WellFormed.word (encode i) = true) : Statement i := by
  have hw := (encode i).isLt
  rw [Statement, hf]
  refine ⟨fun f hmem => ?_, hv⟩
  rcases List.mem_cons.1 hmem with hmem | hmem
  · rw [hmem, Holds]
    norm_num
    omega
  · rw [List.mem_singleton.1 hmem, Holds, Nat.pow_zero, Nat.div_one, Nat.sub_zero]
    exact hlow

theorem of_a {i : Instr} {major : Fin 16} (hm : major.val ∈ [0x1, 0x2, 0x3, 0x4, 0x6, 0x7, 0xA, 0xB, 0xC, 0xD]) (addr : Addr12)
    (he : encode i = encodeA major addr) (hf : fixedFields i = [⟨15, 12, major.val⟩]) : Statement i := by
  refine of_major ?_ hm hf
  have := addr.isLt
  rw [he, encodeA_toNat]
  omega

theorem of_xk {i : Instr} {major : Fin 16} (hm : major.val ∈ [0x1, 0x2, 0x3, 0x4, 0x6, 0x7, 0xA, 0xB, 0xC, 0xD]) (x : Reg)
    (kk : Byte) (he : encode i = encodeXK major x kk) (hf : fixedFields i = [⟨15, 12, major.val⟩]) : Statement i := by
  refine of_major ?_ hm hf
  have := kk.isLt
  have := x.isLt
  rw [he, encodeXK_toNat]
  omega

theorem of_drw (x y : Reg) (n : Fin 16) : Statement (.drw x y n) := by
  refine of_major (major := 0xD) ?_ (by decide) rfl
  have := x.isLt
  have := y.isLt
  have := n.isLt
  rw [encode, encodeXYN_toNat]
  omega

/-- The major opcode and the low byte of a word of format XF. -/
theorem xf_parts (major : Fin 16) (x : Reg) (kk : Byte) :
    (encodeXK major x kk).toNat / 4096 = major.val ∧ (encodeXK major x kk).toNat % 256 = kk.toNat := by
  have := kk.isLt
  have := x.isLt
  rw [encodeXK_toNat]
  omega

/-- The major opcode and the low digit of a word of format XY. -/
theorem xy_parts (major : Fin 16) (x y : Reg) (n : Fin 16) :
    (encodeXYN major x y n).toNat / 4096 = major.val ∧ (encodeXYN major x y n).toNat % 16 = n.val := by
  have := x.isLt
  have := y.isLt
  have := n.isLt
  rw [encodeXYN_toNat]
  omega

theorem of_key {i : Instr} (x : Reg) {kk : Byte} (hv : kk.toNat ∈ [0x9E, 0xA1]) (he : encode i = encodeXK 0xE x kk)
    (hf : fixedFields i = [⟨15, 12, 0xE⟩, ⟨7, 0, kk.toNat⟩]) : Statement i := by
  obtain ⟨h1, h2⟩ := xf_parts 0xE x kk
  rw [← he] at h1 h2
  exact of_major_low h1 h2 hf (valid_key h1 h2 hv)

theorem of_misc {i : Instr} (x : Reg) {kk : Byte} (hv : kk.toNat ∈ [0x07, 0x0A, 0x15, 0x18, 0x1E, 0x29, 0x33, 0x55, 0x65])
    (he : encode i = encodeXK 0xF x kk) (hf : fixedFields i = [⟨15, 12, 0xF⟩, ⟨7, 0, kk.toNat⟩]) : Statement i := by
  obtain ⟨h1, h2⟩ := xf_parts 0xF x kk
  rw [← he] at h1 h2
  exact of_major_low h1 h2 hf (valid_misc h1 h2 hv)

theorem of_eight {i : Instr} (x y : Reg) {n : Fin 16} (hv : n.val ∈ [0x0, 0x1, 0x2, 0x3, 0x4, 0x5, 0x6, 0x7, 0xE])
    (he : encode i = encodeXYN 0x8 x y n) (hf : fixedFields i = [⟨15, 12, 0x8⟩, ⟨3, 0, n.val⟩]) : Statement i := by
  obtain ⟨h1, h2⟩ := xy_parts 0x8 x y n
  rw [← he] at h1 h2
  exact of_major_low h1 h2 hf (valid_eight h1 h2 hv)

theorem of_skip {i : Instr} {major : Fin 16} (hm : major = 0x5 ∨ major = 0x9) (x y : Reg)
    (he : encode i = encodeXYN major x y 0x0) (hf : fixedFields i = [⟨15, 12, major.val⟩, ⟨3, 0, 0⟩]) : Statement i := by
  obtain ⟨h1, h2⟩ := xy_parts major x y 0x0
  rw [← he] at h1 h2
  refine of_major_low h1 h2 hf (valid_registerSkip ?_ h2)
  rw [h1]
  rcases hm with rfl | rfl
  · exact .inl rfl
  · exact .inr rfl

/-! ### One lemma per constructor -/

theorem nop : Statement .nop :=
  of_zero (by decide) rfl

theorem cls : Statement .cls :=
  of_zero (by decide) rfl

theorem ret : Statement .ret :=
  of_zero (by decide) rfl

theorem jp (addr : Addr12) : Statement (.jp addr) :=
  of_a (by decide) addr rfl rfl

theorem call (addr : Addr12) : Statement (.call addr) :=
  of_a (by decide) addr rfl rfl

theorem seImm (x : Reg) (kk : Byte) : Statement (.seImm x kk) :=
  of_xk (by decide) x kk rfl rfl

theorem sneImm (x : Reg) (kk : Byte) : Statement (.sneImm x kk) :=
  of_xk (by decide) x kk rfl rfl

theorem seReg (x : Reg) (y : Reg) : Statement (.seReg x y) :=
  of_skip (.inl rfl) x y rfl rfl

theorem ldImm (x : Reg) (kk : Byte) : Statement (.ldImm x kk) :=
  of_xk (by decide) x kk rfl rfl

theorem addImm (x : Reg) (kk : Byte) : Statement (.addImm x kk) :=
  of_xk (by decide) x kk rfl rfl

theorem ldReg (x : Reg) (y : Reg) : Statement (.ldReg x y) :=
  of_eight x y (by decide) rfl rfl

theorem orReg (x : Reg) (y : Reg) : Statement (.orReg x y) :=
  of_eight x y (by decide) rfl rfl

theorem andReg (x : Reg) (y : Reg) : Statement (.andReg x y) :=
  of_eight x y (by decide) rfl rfl

theorem xorReg (x : Reg) (y : Reg) : Statement (.xorReg x y) :=
  of_eight x y (by decide) rfl rfl

theorem addReg (x : Reg) (y : Reg) : Statement (.addReg x y) :=
  of_eight x y (by decide) rfl rfl

theorem subReg (x : Reg) (y : Reg) : Statement (.subReg x y) :=
  of_eight x y (by decide) rfl rfl

theorem shr (x : Reg) (y : Reg) : Statement (.shr x y) :=
  of_eight x y (by decide) rfl rfl

theorem subnReg (x : Reg) (y : Reg) : Statement (.subnReg x y) :=
  of_eight x y (by decide) rfl rfl

theorem shl (x : Reg) (y : Reg) : Statement (.shl x y) :=
  of_eight x y (by decide) rfl rfl

theorem sneReg (x : Reg) (y : Reg) : Statement (.sneReg x y) :=
  of_skip (.inr rfl) x y rfl rfl

theorem ldI (addr : Addr12) : Statement (.ldI addr) :=
  of_a (by decide) addr rfl rfl

theorem jpV0 (addr : Addr12) : Statement (.jpV0 addr) :=
  of_a (by decide) addr rfl rfl

theorem rnd (x : Reg) (kk : Byte) : Statement (.rnd x kk) :=
  of_xk (by decide) x kk rfl rfl

theorem drw (x : Reg) (y : Reg) (n : Fin 16) : Statement (.drw x y n) :=
  of_drw x y n

theorem skp (x : Reg) : Statement (.skp x) :=
  of_key x (by decide) rfl rfl

theorem sknp (x : Reg) : Statement (.sknp x) :=
  of_key x (by decide) rfl rfl

theorem ldVxDt (x : Reg) : Statement (.ldVxDt x) :=
  of_misc x (by decide) rfl rfl

theorem ldVxK (x : Reg) : Statement (.ldVxK x) :=
  of_misc x (by decide) rfl rfl

theorem ldDtVx (x : Reg) : Statement (.ldDtVx x) :=
  of_misc x (by decide) rfl rfl

theorem ldStVx (x : Reg) : Statement (.ldStVx x) :=
  of_misc x (by decide) rfl rfl

theorem addI (x : Reg) : Statement (.addI x) :=
  of_misc x (by decide) rfl rfl

theorem ldF (x : Reg) : Statement (.ldF x) :=
  of_misc x (by decide) rfl rfl

theorem ldB (x : Reg) : Statement (.ldB x) :=
  of_misc x (by decide) rfl rfl

theorem storeRegs (x : Reg) : Statement (.storeRegs x) :=
  of_misc x (by decide) rfl rfl

theorem loadRegs (x : Reg) : Statement (.loadRegs x) :=
  of_misc x (by decide) rfl rfl

end Sys2Proof.Laws.TableRow
end

