-- ==== Sys2Proof/Tests/Slice0.lean ====
section
/-! SUPPORT. Tests. Expected results come from the spec: the encodings of 30_encoding.md, the examples in the instruction rules and the
vectors V-.. of 95_test_vectors.md. Each step test is one step. The last part holds a witness for every obligation with hypotheses. -/

namespace Sys2Proof.Tests

open Sys2Proof.Machine

/-! ### Helpers -/

/-- The state of a `next` outcome. -/
def nextOf : Result → Option State
  | .next t => some t
  | .fault _ => none
  | .refused _ => none

/-- One step from `s`, with the instruction word `w` placed where it fetches. -/
def stepOn (w : Nat) (s : State) : Option State := nextOf (step (s.withFetchWord 16 w))

/-- V0 and V1 set. -/
def regs2 (a b : Byte) : State := (State.reset.setReg 0 a).setReg 1 b

/-- V0, V1 and VF set. -/
def regs3 (a b f : Byte) : State := (regs2 a b).setReg 0xF f

/-- I = 0x300 and bytes stored there. -/
def bytesAtI (bytes : List Byte) (s : State) : State := (s.setI 0x300).setMem (Memory.putBytes [] 0x300 bytes)

/-- A display with two lit cells. -/
def lit (c : Fin 64) (r : Fin 32) (c' : Fin 64) (r' : Fin 32) (s : State) : State :=
  s.setDisp (toggleCell (toggleCell blankDisplay c r) c' r')

/-- What a step left in V0, VF and pc. -/
def arith (o : Option State) : Option (Byte × Byte × Word) := o.map fun t => (t.reg 0, t.reg 0xF, t.pc)

/-! ### Ill-formed words: one for each check (30_encoding.md R86, R87) -/

theorem test_illformed_zero : WellFormed.word 0x00E1 = false ∧ WellFormed.word 0x0FFF = false := by decide
theorem test_illformed_skip5 : WellFormed.word 0x5011 = false := by decide
theorem test_illformed_eight : WellFormed.word 0x8018 = false ∧ WellFormed.word 0x800F = false := by decide
theorem test_illformed_skip9 : WellFormed.word 0x901F = false := by decide
theorem test_illformed_key : WellFormed.word 0xE000 = false ∧ WellFormed.word 0xE19F = false := by decide
theorem test_illformed_misc : WellFormed.word 0xF000 = false ∧ WellFormed.word 0xF075 = false := by decide
theorem test_illformed_rejected_by_name :
    decode [0x50, 0x11, 0x00] = .error (.invalidOpcode 0x5011) ∧ decode [0x50] = .error .truncated ∧
      decode [] = .error .truncated := by decide

/-! ### Decoding: the word of every constructor, written out from its encoding -/

theorem test_decode_nop : decodeWord 0b0000000000000000 = some .nop := by decide
theorem test_decode_cls : decodeWord 0b0000000011100000 = some .cls := by decide
theorem test_decode_ret : decodeWord 0b0000000011101110 = some .ret := by decide
theorem test_decode_jp : decodeWord 0b0001101010111100 = some (.jp 0xABC) := by decide
theorem test_decode_call : decodeWord 0b0010001100000001 = some (.call 0x301) := by decide
theorem test_decode_seImm : decodeWord 0b0011101000000111 = some (.seImm 0xA 0x07) := by decide
theorem test_decode_sneImm : decodeWord 0b0100000110000000 = some (.sneImm 0x1 0x80) := by decide
theorem test_decode_seReg : decodeWord 0b0101001000110000 = some (.seReg 2 3) := by decide
theorem test_decode_ldImm : decodeWord 0b0110101011111111 = some (.ldImm 0xA 0xFF) := by decide
theorem test_decode_addImm : decodeWord 0b0111001100100000 = some (.addImm 3 0x20) := by decide
theorem test_decode_ldReg : decodeWord 0b1000001011110000 = some (.ldReg 2 0xF) := by decide
theorem test_decode_orReg : decodeWord 0b1000001000110001 = some (.orReg 2 3) := by decide
theorem test_decode_andReg : decodeWord 0b1000001000110010 = some (.andReg 2 3) := by decide
theorem test_decode_xorReg : decodeWord 0b1000001000110011 = some (.xorReg 2 3) := by decide
theorem test_decode_addReg : decodeWord 0b1000000000010100 = some (.addReg 0 1) := by decide
theorem test_decode_subReg : decodeWord 0b1000111100010101 = some (.subReg 0xF 1) := by decide
theorem test_decode_shr : decodeWord 0b1000010001110110 = some (.shr 4 7) := by decide
theorem test_decode_subnReg : decodeWord 0b1000000111110111 = some (.subnReg 1 0xF) := by decide
theorem test_decode_shl : decodeWord 0b1000010010011110 = some (.shl 4 9) := by decide
theorem test_decode_sneReg : decodeWord 0b1001001000110000 = some (.sneReg 2 3) := by decide
theorem test_decode_ldI : decodeWord 0b1010001100000000 = some (.ldI 0x300) := by decide
theorem test_decode_jpV0 : decodeWord 0b1011111111111000 = some (.jpV0 0xFF8) := by decide
theorem test_decode_rnd : decodeWord 0b1100001100001111 = some (.rnd 3 0x0F) := by decide
theorem test_decode_drw : decodeWord 0b1101000000011111 = some (.drw 0 1 15) := by decide
theorem test_decode_skp : decodeWord 0b1110000110011110 = some (.skp 1) := by decide
theorem test_decode_sknp : decodeWord 0b1110000110100001 = some (.sknp 1) := by decide
theorem test_decode_ldVxDt : decodeWord 0b1111001100000111 = some (.ldVxDt 3) := by decide
theorem test_decode_ldVxK : decodeWord 0b1111010100001010 = some (.ldVxK 5) := by decide
theorem test_decode_ldDtVx : decodeWord 0b1111001100010101 = some (.ldDtVx 3) := by decide
theorem test_decode_ldStVx : decodeWord 0b1111001100011000 = some (.ldStVx 3) := by decide
theorem test_decode_addI : decodeWord 0b1111001000011110 = some (.addI 2) := by decide
theorem test_decode_ldF : decodeWord 0b1111000000101001 = some (.ldF 0) := by decide
theorem test_decode_ldB : decodeWord 0b1111101000110011 = some (.ldB 0xA) := by decide
theorem test_decode_storeRegs : decodeWord 0b1111001001010101 = some (.storeRegs 2) := by decide
theorem test_decode_loadRegs : decodeWord 0b1111001001100101 = some (.loadRegs 2) := by decide
theorem test_decodeTableWord : decodeTableWord 16 0xD01F = some (.drw 0 1 15) ∧ decodeTableWord 16 0x0123 = none := by
  decide

/-! ### The step cycle (95_test_vectors.md 2.1 and 2.5) -/

/-- V-C1. -/
theorem test_nop : (stepOn 0x0000 State.reset).map (·.pc) = some 0x202 := by decide

/-- V-C2. -/
theorem test_invalid_opcode :
    (stepOn 0x0123 State.reset).map (fun t => (t.fault, t.pc)) = some (some ⟨.invalidOpcode 0x0123, 0x200⟩, 0x200) := by
  decide

/-- V-C9: the faulted step returns the fault. -/
theorem test_faulted_step :
    step (State.reset.raise (.invalidOpcode 0x0123)) = .fault (.latched ⟨.invalidOpcode 0x0123, 0x200⟩) := rfl

/-- V-C11, and E7. -/
theorem test_end_of_rom : (nextOf (step State.reset)).map (fun t => (t.running, t.pc, t.fault)) = some (false, 0x200, none) := by
  decide

/-- V-C12. -/
theorem test_pc_limit :
    (nextOf (step ((State.reset.setRomLen 3584).setPc 0xFFE))).map (fun t => (t.running, t.pc)) = some (false, 0xFFE) := by
  decide

/-- V-C15: an odd pc is fetched as is. -/
theorem test_odd_pc : (stepOn 0x6007 (State.reset.setPc 0x201)).map (fun t => (t.reg 0, t.pc)) = some (0x07, 0x203) := by
  decide

/-- The example of 40_cycle.md R102, in units of 10 microseconds (a period of 1666). -/
theorem test_timer_ticks :
    (timerSubStep 1666 1700 (State.reset.setDt 5)).dt = 4 ∧ (timerSubStep 1666 1700 (State.reset.setDt 5)).st = 0 ∧
      (timerSubStep 1666 1700 (State.reset.setDt 5)).tLast = 1700 := by decide

/-- E9: a timer at 0 stays 0; too early, nothing. -/
theorem test_timer_stays :
    (timerSubStep 1666 1700 State.reset).dt = 0 ∧ (timerSubStep 1666 1665 (State.reset.setDt 5)).dt = 5 := by decide

/-- V-W-1. -/
theorem test_wait_goes_on :
    nextOf (step ((State.reset.setWait (some 5)).setKey 3 true)) = some ((State.reset.setWait (some 5)).setKey 3 true) := by
  decide

/-- V-W-2. -/
theorem test_wait_resolves :
    (nextOf (step (((State.reset.setPc 0x204).setWait (some 5)).setRkey (some 0xA)))).map
      (fun t => (t.reg 5, t.wait, t.rkey, t.pc)) = some (0x0A, none, none, 0x206) := by decide

/-! ### 41_arith_logic.md -/

/-- V-6-1. -/
theorem test_ldImm : (stepOn 0x6AFF State.reset).map (fun t => (t.reg 0xA, t.pc)) = some (0xFF, 0x202) := by decide

/-- V-7-1: no flag. -/
theorem test_addImm_wraps : arith (stepOn 0x70FF (regs3 0x01 0 0x07)) = some (0x00, 0x07, 0x202) := by decide

/-- V-7-3. -/
theorem test_addImm_vf : (stepOn 0x7F01 (regs3 0 0 0x01)).map (·.reg 0xF) = some 0x02 := by decide

/-- V-8xy0 to V-8xy3. -/
theorem test_ldReg : arith (stepOn 0x8010 (regs3 0 0x9A 0x55)) = some (0x9A, 0x55, 0x202) := by decide
theorem test_orReg : arith (stepOn 0x8011 (regs3 0xF0 0x0F 0x55)) = some (0xFF, 0x55, 0x202) := by decide
theorem test_andReg : arith (stepOn 0x8012 (regs3 0xF0 0x3C 0x55)) = some (0x30, 0x55, 0x202) := by decide
theorem test_xorReg : arith (stepOn 0x8013 (regs3 0xFF 0x0F 0x55)) = some (0xF0, 0x55, 0x202) := by decide

/-- V-8xy4-2 and V-8xy4-9. -/
theorem test_addReg_carry : arith (stepOn 0x8014 (regs2 0x80 0x80)) = some (0x00, 1, 0x202) := by decide
theorem test_addReg_vf : arith (stepOn 0x8F04 (regs3 0xFE 0 0x01)) = some (0xFE, 0, 0x202) := by decide

/-- V-8xy5-2 and V-8xy5-3. -/
theorem test_subReg_borrow : arith (stepOn 0x8015 (regs2 0x03 0x05)) = some (0xFE, 0, 0x202) := by decide
theorem test_subReg_equal : arith (stepOn 0x8015 (regs2 0x05 0x05)) = some (0x00, 1, 0x202) := by decide

/-- V-8xy6-5 (Vy is not read) and V-8xy6-6. -/
theorem test_shr : arith (stepOn 0x8016 (regs3 0x04 0x07 1)) = some (0x02, 0, 0x202) := by decide
theorem test_shr_vf : (stepOn 0x8F06 (regs3 0 0 0x03)).map (·.reg 0xF) = some 1 := by decide

/-- V-8xy7-1 and V-8xy7-4. -/
theorem test_subnReg : arith (stepOn 0x8017 (regs2 0x03 0x05)) = some (0x02, 1, 0x202) := by decide
theorem test_subnReg_vf : (stepOn 0x8F17 (regs3 0 0x01 0x02)).map (·.reg 0xF) = some 0 := by decide

/-- V-8xyE-1 and V-8xyE-2. -/
theorem test_shl : arith (stepOn 0x800E (regs2 0x81 0)) = some (0x02, 1, 0x202) := by decide
theorem test_shl_no_carry : arith (stepOn 0x800E (regs3 0x40 0 1)) = some (0x80, 0, 0x202) := by decide

/-- V-C-1: the byte drawn is 0xA7. -/
theorem test_rnd : (rndWith 0xA7 3 0x0F State.reset).reg 3 = 0x07 := by decide

/-! ### 42_control_flow.md -/

/-- V-1-1. -/
theorem test_jp : (stepOn 0x1ABC State.reset).map (·.pc) = some 0xABC := by decide

/-- V-2-1 and V-2-2. -/
theorem test_call : (stepOn 0x2300 State.reset).map (fun t => (t.stack[0], t.sp, t.pc)) = some (0x202, 1, 0x300) := by decide
theorem test_call_full : (stepOn 0x2300 (State.reset.setStack (Vector.replicate 16 0x202) 16)).map
    (fun t => (t.fault, t.sp, t.pc)) = some (some ⟨.stackOverflow, 0x200⟩, 16, 0x200) := by decide

/-- V-00EE-1 and V-00EE-2. -/
theorem test_ret : (stepOn 0x00EE (State.reset.setStack (Vector.replicate 16 0x456) 1)).map (fun t => (t.pc, t.sp)) =
    some (0x456, 0) := by decide
theorem test_ret_empty : (stepOn 0x00EE State.reset).map (fun t => (t.fault, t.pc)) =
    some (some ⟨.stackUnderflow, 0x200⟩, 0x200) := by decide

/-- V-3-1 and V-3-2. -/
theorem test_seImm : (stepOn 0x3007 (regs2 0x07 0)).map (·.pc) = some 0x204 := by decide
theorem test_seImm_not : (stepOn 0x3007 (regs2 0x08 0)).map (·.pc) = some 0x202 := by decide

/-- V-4-1 and V-4-2. -/
theorem test_sneImm_not : (stepOn 0x4007 (regs2 0x07 0)).map (·.pc) = some 0x202 := by decide
theorem test_sneImm : (stepOn 0x4007 (regs2 0x08 0)).map (·.pc) = some 0x204 := by decide

/-- V-5-1 and V-5-2. -/
theorem test_seReg : (stepOn 0x5010 (regs2 0x33 0x33)).map (·.pc) = some 0x204 := by decide
theorem test_seReg_not : (stepOn 0x5010 (regs2 0x33 0x34)).map (·.pc) = some 0x202 := by decide

/-- V-9-1 and V-9-2. -/
theorem test_sneReg_not : (stepOn 0x9010 (regs2 0x33 0x33)).map (·.pc) = some 0x202 := by decide
theorem test_sneReg : (stepOn 0x9010 (regs2 0x33 0x34)).map (·.pc) = some 0x204 := by decide

/-- V-E-1 and V-E-3. -/
theorem test_skp : (stepOn 0xE19E ((regs2 0 5).setKey 5 true)).map (·.pc) = some 0x204 := by decide
theorem test_skp_no_key : (stepOn 0xE19E (regs2 0 0x10)).map (fun t => (t.fault, t.pc)) =
    some (some ⟨.keyIndexOutOfRange 0x10, 0x200⟩, 0x200) := by decide

/-- V-E-4 and V-E-5. -/
theorem test_sknp_pressed : (stepOn 0xE1A1 ((regs2 0 5).setKey 5 true)).map (·.pc) = some 0x202 := by decide
theorem test_sknp : (stepOn 0xE1A1 (regs2 0 5)).map (·.pc) = some 0x204 := by decide

/-- V-B-2 and V-B-3. -/
theorem test_jpV0_top : (stepOn 0xBFFF State.reset).map (·.pc) = some 0xFFF := by decide
theorem test_jpV0_out : (stepOn 0xBFF8 (regs2 0x10 0)).map (fun t => (t.fault, t.pc)) =
    some (some ⟨.jumpOutOfRange 0x1008, 0x200⟩, 0x200) := by decide

/-! ### 43_display.md -/

/-- V-00E0-2. -/
theorem test_cls : (stepOn 0x00E0 (lit 0 0 63 31 State.reset)).map (fun t => (t.disp, t.pc)) =
    some (blankDisplay, 0x202) := by decide

/-- V-D3: (1,0) and (5,5) lit before; (0,0) and (5,5) after, with a collision. -/
theorem test_drw_collision : (stepOn 0xD011 (lit 1 0 5 5 (bytesAtI [0xC0] State.reset))).map
    (fun t => (t.disp[0][0], t.disp[1][0], t.disp[5][5], t.reg 0xF, t.pc)) = some (true, false, true, 1, 0x202) := by decide

/-- V-D5: columns past 63 are dropped. -/
theorem test_drw_clip : (stepOn 0xD011 (bytesAtI [0xFF] (regs2 60 0))).map
    (fun t => (t.disp[59][0], t.disp[60][0], t.disp[63][0], t.disp[0][0], t.reg 0xF)) =
      some (false, true, true, false, 0) := by decide

/-! ### 44_timer_keypad.md -/

/-- V-F07, V-F15, V-F18. -/
theorem test_ldVxDt : (stepOn 0xF507 (State.reset.setDt 0x3C)).map (fun t => (t.reg 5, t.pc)) = some (0x3C, 0x202) := by decide
theorem test_ldDtVx : (stepOn 0xF515 (State.reset.setReg 5 0x10)).map (fun t => (t.dt, t.st, t.pc)) =
    some (0x10, 0, 0x202) := by decide
theorem test_ldStVx : (stepOn 0xF518 (State.reset.setReg 5 0x20)).map (fun t => (t.st, t.dt, t.pc)) =
    some (0x20, 0, 0x202) := by decide

/-- V-F0A-2: no resolution in the same step. -/
theorem test_ldVxK : (stepOn 0xF50A (State.reset.setRkey (some 3))).map (fun t => (t.wait, t.pc, t.rkey)) =
    some (some 5, 0x200, some 3) := by decide

/-! ### 45_memory_index.md -/

/-- The examples of R240 and R242. -/
theorem test_ldI : (stepOn 0xA300 State.reset).map (fun t => (t.i, t.pc)) = some (0x300, 0x202) := by decide
theorem test_ldF : (stepOn 0xF029 (regs2 0x1A 0)).map (fun t => (t.i, t.pc)) = some (0x32, 0x202) := by decide

/-- R241: a sum above 0xFFF is kept, one above 0xFFFF faults. -/
theorem test_addI : (stepOn 0xF01E ((regs2 0x01 0).setI 0xFFF)).map (fun t => (t.i, t.fault)) = some (0x1000, none) := by
  decide
theorem test_addI_overflow : (stepOn 0xF01E ((regs2 0x01 0).setI 0xFFFF)).map (fun t => (t.i, t.fault)) =
    some (0xFFFF, some ⟨.indexOverflow 0x10000, 0x200⟩) := by decide

/-- The example of R243, and its corner case at 0xFFE: nothing is written. -/
theorem test_ldB : (stepOn 0xFA33 ((State.reset.setReg 0xA 123).setI 0x300)).map
    (fun t => (t.mem.byteAt 0x300, t.mem.byteAt 0x301, t.mem.byteAt 0x302, t.i)) = some (1, 2, 3, 0x300) := by decide
theorem test_ldB_out : (stepOn 0xFA33 ((State.reset.setReg 0xA 123).setI 0xFFE)).map
    (fun t => (t.mem.byteAt 0xFFE, t.fault)) = some (0, some ⟨.memoryOutOfBounds 0x1000, 0x200⟩) := by decide

/-- R244, and the example of 60_exceptions.md R264. -/
theorem test_storeRegs : (stepOn 0xF155 ((regs2 0x11 0x22).setI 0x300)).map
    (fun t => (t.mem.byteAt 0x300, t.mem.byteAt 0x301, t.mem.byteAt 0x302, t.i)) = some (0x11, 0x22, 0, 0x300) := by decide
theorem test_storeRegs_font : (stepOn 0xF355 ((regs2 0x11 0x22).setI 0x04E)).map
    (fun t => (t.mem.byteAt 0x050, t.fault)) = some (0, some ⟨.fontRegionStore 0x04E, 0x200⟩) := by decide

/-- R245: only V0 .. Vx are written. -/
theorem test_loadRegs : (stepOn 0xF165 (bytesAtI [1, 2, 3] State.reset)).map
    (fun t => (t.reg 0, t.reg 1, t.reg 2, t.i)) = some (1, 2, 0, 0x300) := by decide

/-- Glyph 0 is read from the font (10_state.md R26). -/
theorem test_loadRegs_font : (stepOn 0xF265 State.reset).map (fun t => (t.reg 0, t.reg 1, t.reg 2)) =
    some (0xF0, 0x90, 0x90) := by decide

/-- The codes of 60_exceptions.md R260. -/
theorem test_codes : FaultKind.code (.invalidOpcode 0) = 1 ∧ FaultKind.code .stackOverflow = 2 ∧
    FaultKind.code (.romTooLarge 0) = 4 ∧ FaultKind.code (.jumpOutOfRange 0) = 9 := by decide

/-! ### Witnesses: states and operands that meet the hypotheses of the obligations, at the ends of their ranges -/

/-- A state that fetches the word `w`. -/
def on (w : Nat) : State := State.reset.withFetchWord 16 w

/-- A state that fetches the word `w` from the last fetchable address. -/
def atTop (w : Nat) : State := ((State.reset.setRomLen 3584).setPc 4093).withFetchWord 16 w

/-- A faulted, a halted and a waiting state. -/
def faulted : State := State.reset.raise .stackUnderflow
def halted : State := State.reset.setRunning false
def waiting : State := (State.reset.setWait (some 5)).setPc 4093

theorem witness_decodedWord : decodeWord 0x6005 = some (.ldImm 0 0x05) := by decide

theorem witness_fetches : (on 0x00E0).Fetches ∧ decodeWord (on 0x00E0).wordAtPc = some .cls := by
  unfold State.Fetches
  decide

theorem witness_fetches_top : (atTop 0x00E0).Fetches ∧ decodeWord (atTop 0x00E0).wordAtPc = some .cls := by
  unfold State.Fetches
  decide

theorem witness_fetches_invalid : (on 0x0123).Fetches ∧ decodeWord (on 0x0123).wordAtPc = none := by
  unfold State.Fetches
  decide

theorem witness_fetchRead : (atTop 0x00E0).pc.toNat < 4094 ∧ (atTop 0x00E0).pc.toNat = 4093 := by decide

theorem witness_faulted : faulted.fault = some ⟨.stackUnderflow, 0x200⟩ ∧ faulted.EndedBadly := by
  unfold State.EndedBadly
  decide

theorem witness_halted : halted.EndedNormally := by
  unfold State.EndedNormally
  decide

/-- A call that is neither reset nor load, in a faulted and in a halted state. -/
theorem witness_call_ended :
    (∃ t r, hostCall (.step 7) faulted = .next (t, r)) ∧ ∃ t r, hostCall (.step 7) halted = .next (t, r) :=
  ⟨⟨_, _, rfl⟩, ⟨_, _, rfl⟩⟩

/-- The timer sub-step exactly one period after the last tick, and one unit before. -/
theorem witness_timer : 0 < 1666 ∧ State.reset.tLast + 1666 ≤ 1666 ∧ 1665 < State.reset.tLast + 1666 := by decide

theorem witness_live : (on 0x0000).Live ∧ (on 0x0000).wait = none := by
  unfold State.Live
  decide

theorem witness_timers_zero : State.reset.dt = 0 ∧ State.reset.st = 0 := by decide

/-- A step that raises DT, and one that raises ST. -/
theorem witness_raises_dt : ∃ t, step ((on 0xF015).setReg 0 3) = .next t ∧ ((on 0xF015).setReg 0 3).dt.toNat < t.dt.toNat :=
  ⟨_, rfl, by decide⟩

theorem witness_raises_st : ∃ t, step ((on 0xF018).setReg 0 3) = .next t ∧ ((on 0xF018).setReg 0 3).st.toNat < t.st.toNat :=
  ⟨_, rfl, by decide⟩

theorem witness_waiting : waiting.Live ∧ waiting.wait = some 5 ∧ waiting.rkey = none := by
  unfold State.Live
  decide

theorem witness_wait_begins : ∃ t, step (on 0xF50A) = .next t ∧ t.wait ≠ (on 0xF50A).wait := ⟨_, rfl, by decide⟩

theorem witness_wait_ends :
    ∃ t, step (waiting.setRkey (some 0xF)) = .next t ∧ t.wait ≠ (waiting.setRkey (some 0xF)).wait := ⟨_, rfl, by decide⟩

theorem witness_resolution :
    (waiting.setRkey (some 0xF)).Live ∧ (waiting.setRkey (some 0xF)).wait = some 5 ∧
      (waiting.setRkey (some 0xF)).rkey = some 0xF := by
  unfold State.Live
  decide

theorem witness_stale :
    ((on 0xF50A).setRkey (some 0)).Fetches ∧ decodeWord ((on 0xF50A).setRkey (some 0)).wordAtPc = some (.ldVxK 5) ∧
      ((on 0xF50A).setRkey (some 0)).rkey = some 0 := by
  unfold State.Fetches
  decide

theorem witness_key_consumed : ∃ t, step (waiting.setRkey (some 0xF)) = .next t ∧ t.rkey ≠ (waiting.setRkey (some 0xF)).rkey :=
  ⟨_, rfl, by decide⟩

/-- The sub-step takes 1 from each timer. -/
theorem witness_timer_changes : (timerSubStep 1 1 ((State.reset.setDt 1).setSt 255)).dt ≠ 1 ∧
    (timerSubStep 1 1 ((State.reset.setDt 1).setSt 255)).st ≠ 255 := by decide

/-- The ends of the termination check: pc = 4094; pc at the end of the ROM; the last address that goes on. -/
theorem witness_ends_at_limit : (State.reset.setPc 4094).Live ∧ 4094 ≤ (State.reset.setPc 4094).pc.toNat := by
  unfold State.Live
  decide

theorem witness_ends_at_rom : ((State.reset.setRomLen 6).setPc 0x206).Live ∧ ((State.reset.setRomLen 6).setPc 0x206).wait = none ∧
    0x200 + ((State.reset.setRomLen 6).setPc 0x206).romLen ≤ ((State.reset.setRomLen 6).setPc 0x206).pc.toNat := by
  unfold State.Live
  decide

theorem witness_goes_on : (atTop 0x0000).Live ∧ (atTop 0x0000).wait = none ∧ (atTop 0x0000).pc.toNat < 4094 ∧
    (atTop 0x0000).pc.toNat < 0x200 + (atTop 0x0000).romLen := by
  unfold State.Live
  decide

theorem witness_step_faults : (on 0x00EE).fault = none ∧ ∃ t, step (on 0x00EE) = .next t ∧
    t.fault = some ⟨.stackUnderflow, 0x200⟩ := ⟨rfl, _, rfl, rfl⟩

/-- Instructions that change memory, the display, the stack, I, a timer and the key wait. -/
theorem witness_writes_memory : ∃ t, exec (.storeRegs 0) (bytesAtI [1] State.reset) = .next t ∧
    ∃ a, t.mem.byteAt a ≠ (bytesAtI [1] State.reset).mem.byteAt a := ⟨_, rfl, 0x300, by decide⟩

theorem witness_writes_memory_bcd : ∃ t, exec (.ldB 0) ((regs2 1 0).setI 0xFFD) = .next t ∧
    ∃ a, t.mem.byteAt a ≠ ((regs2 1 0).setI 0xFFD).mem.byteAt a := ⟨_, rfl, 0xFFF, by decide⟩

theorem witness_writes_display : ∃ t, exec .cls (lit 0 0 63 31 State.reset) = .next t ∧
    t.disp ≠ (lit 0 0 63 31 State.reset).disp := ⟨_, rfl, by decide⟩

theorem witness_draws : ∃ t, exec (.drw 0 0 5) State.reset = .next t ∧ t.disp ≠ State.reset.disp := ⟨_, rfl, by decide⟩

theorem witness_writes_stack : ∃ t, exec (.call 0x300) State.reset = .next t ∧ (t.stack ≠ State.reset.stack ∨ t.sp ≠ State.reset.sp) :=
  ⟨_, rfl, by decide⟩

theorem witness_writes_index : ∃ t, exec (.ldI 0xFFF) State.reset = .next t ∧ t.i ≠ State.reset.i := ⟨_, rfl, by decide⟩

theorem witness_writes_timers : (∃ t, exec (.ldDtVx 0) (regs2 3 0) = .next t ∧ t.dt ≠ (regs2 3 0).dt) ∧
    ∃ t, exec (.ldStVx 0) (regs2 3 0) = .next t ∧ t.st ≠ (regs2 3 0).st := ⟨⟨_, rfl, by decide⟩, ⟨_, rfl, by decide⟩⟩

theorem witness_writes_wait : ∃ t, exec (.ldVxK 0xF) State.reset = .next t ∧ t.wait ≠ State.reset.wait := ⟨_, rfl, by decide⟩

/-- A general register and VF; pc by 4 and to a target; the fault record; the draw count. -/
theorem witness_writes_registers : (∃ t, exec (.ldImm 0 7) State.reset = .next t ∧ t.reg 0 ≠ State.reset.reg 0) ∧
    ∃ t, exec (.addReg 0 1) (regs2 0xFF 1) = .next t ∧ t.reg vf ≠ (regs2 0xFF 1).reg vf :=
  ⟨⟨_, rfl, by decide⟩, ⟨_, rfl, by decide⟩⟩

theorem witness_writes_pc : (∃ t, exec (.seReg 0 0) State.reset = .next t ∧ t.pc ≠ State.reset.pc) ∧
    ∃ t, exec (.jp 0xFFF) State.reset = .next t ∧ t.pc ≠ State.reset.pc := ⟨⟨_, rfl, by decide⟩, ⟨_, rfl, by decide⟩⟩

theorem witness_writes_fault : ∃ t, exec .ret State.reset = .next t ∧ t.fault ≠ State.reset.fault := ⟨_, rfl, by decide⟩

theorem witness_writes_draws : ∃ t, exec (.rnd 0 0) State.reset = .next t ∧ t.draws ≠ State.reset.draws :=
  ⟨_, rfl, Nat.succ_ne_self _⟩

theorem witness_soundTimer : ∃ t, step ((on 0xF518).setReg 5 0x20) = .next t := ⟨_, rfl⟩

theorem witness_font : (∃ t, step ((on 0xF055).setI 0x04F) = .next t) ∧ (0x04F < 0x50 ∧ 0x000 < 0x50) := ⟨⟨_, rfl⟩, by decide⟩

/-- The invariant holds in a loaded state, a waiting one and a faulted one, and a step of each answers a next state where it can. -/
theorem witness_inv_loaded : (on 0x6A05).Inv ∧ ∃ t, step (on 0x6A05) = .next t :=
  ⟨by constructor <;> first | decide | (intro f hf; cases hf), ⟨_, rfl⟩⟩

theorem witness_inv_waiting : waiting.Inv ∧ ∃ t, step waiting = .next t := ⟨by constructor <;> first | decide | (intro f hf; cases hf), ⟨_, rfl⟩⟩

theorem witness_inv_faulted : faulted.Inv := by
  constructor
  case faultRecord =>
    rintro f hf
    cases hf
    exact ⟨trivial, by decide⟩
  all_goals decide

theorem witness_inv_run : (on 0x6A05).Inv ∧
    ∃ t, runCalls [.setKeypad 0xF true, .reset 3, .load [0x00, 0xE0] 4, .step 4, .dump] (on 0x6A05) = .next t :=
  ⟨by constructor <;> first | decide | (intro f hf; cases hf), ⟨_, rfl⟩⟩

theorem witness_reset : faulted.now ≤ 0 := by decide

/-- The longest ROM that is loaded, and the shortest that is not. -/
theorem witness_load : State.reset.now ≤ 5 ∧ (List.replicate 3584 (0x12 : Byte)).length ≤ 3584 ∧
    3584 < (List.replicate 3585 (0x12 : Byte)).length := by
  simp only [List.length_replicate]
  decide

/-- The shortest ROM that is fetched. -/
theorem witness_entry : State.reset.now ≤ 0 ∧ [(0x12 : Byte)].length ≤ 3584 ∧ [(0x12 : Byte)] ≠ [] := by decide

theorem witness_hostStep : (on 0x00EE).now ≤ 9 ∧ (on 0x00EE).fault = none ∧
    (∃ t, step ((on 0x00EE).setNow 0) = .next t ∧ t.fault = some ⟨.stackUnderflow, 0x200⟩) ∧
    ∃ t, step ((on 0x0000).setNow 0) = .next t ∧ t.fault = none := ⟨by decide, rfl, ⟨_, rfl, rfl⟩, ⟨_, rfl, rfl⟩⟩

/-- The stack one short of full, full, with one entry, and empty. -/
theorem witness_stack : (State.reset.setStack State.reset.stack 15).sp.val < 16 ∧
    (State.reset.setStack State.reset.stack 16).sp.val = 16 ∧ 0 < (State.reset.setStack State.reset.stack 1).sp.val ∧
    State.reset.sp.val = 0 := by decide

theorem witness_skips : (regs2 7 7).reg 0 = 7 ∧ (regs2 7 7).reg 0 ≠ 8 ∧ (regs2 7 7).reg 0 = (regs2 7 7).reg 1 ∧
    (regs2 7 8).reg 0 ≠ (regs2 7 8).reg 1 ∧ (1 : Fin 16) ≠ 0 := by decide

theorem witness_keys : ((regs2 15 0).reg 0).toNat < 16 ∧ 16 ≤ ((regs2 16 0).reg 0).toNat := by decide

theorem witness_jumpPlusV0 : (0xFF8 : Addr12).toNat + ((regs2 7 0).reg 0).toNat ≤ 0xFFF ∧
    0xFFF < (0xFF8 : Addr12).toNat + ((regs2 8 0).reg 0).toNat := by decide

theorem witness_notVf : (0 : Reg) ≠ vf ∧ (14 : Reg) ≠ vf := by decide

theorem witness_mask : (0 : Byte) = 0 := rfl

/-- A sprite that ends at the last byte of memory, and one whose second byte lies past it. -/
theorem witness_draw : (∀ k, k < (2 : Fin 16).val → (State.reset.setI 0xFFE).i.toNat + k ≤ 0xFFF) ∧
    1 < (2 : Fin 16).val ∧ 0xFFF < (State.reset.setI 0xFFF).i.toNat + 1 ∧
    ∀ j, j < 1 → (State.reset.setI 0xFFF).i.toNat + j ≤ 0xFFF := by decide

/-- A covered cell that is lit, a covered cell that is not, and a cell that is not covered. -/
theorem witness_covers : spriteCovers (bytesAtI [0xC0] (lit 1 0 5 5 State.reset)) 0 1 1 1 0 ∧
    (bytesAtI [0xC0] (lit 1 0 5 5 State.reset)).disp[(1 : Fin 64)][(0 : Fin 32)] = true ∧
    spriteCovers (bytesAtI [0xC0] State.reset) 0 1 1 0 0 ∧ State.reset.disp[(0 : Fin 64)][(0 : Fin 32)] = false ∧
    ¬ spriteCovers (bytesAtI [0xC0] State.reset) 0 1 1 63 31 := by
  unfold spriteCovers
  decide

/-- The same origin for the second draw, with x and y other than VF and with x = VF. -/
theorem witness_drawTwice : (0 : Reg) ≠ vf ∧ (∀ k, k < (5 : Fin 16).val → State.reset.i.toNat + k ≤ 0xFFF) ∧
    (∃ t, exec (.drw 0 1 5) State.reset = .next t ∧ t.reg 0 = State.reset.reg 0 ∧ t.reg 1 = State.reset.reg 1) ∧
    ∃ t, exec (.drw vf vf 5) State.reset = .next t ∧ t.reg vf = State.reset.reg vf :=
  ⟨by decide, by decide, ⟨_, rfl, by decide, by decide⟩, ⟨_, rfl, by decide⟩⟩

/-- A first draw that lights a cell, and one that lights none. -/
theorem witness_draw_lights : (∃ t, exec (.drw 0 1 1) State.reset = .next t ∧
      State.reset.disp[(0 : Fin 64)][(0 : Fin 32)] = false ∧ t.disp[(0 : Fin 64)][(0 : Fin 32)] = true) ∧
    ∃ t, exec (.drw 0 1 0) State.reset = .next t ∧
      ∀ (c : Fin 64) (r : Fin 32), t.disp[c][r] = true → State.reset.disp[c][r] = true :=
  ⟨⟨_, rfl, by decide, by decide⟩, ⟨_, rfl, fun _ _ h => h⟩⟩

theorem witness_addToIndex : ((regs2 1 0).setI 0xFFFE).i.toNat + (((regs2 1 0).setI 0xFFFE).reg 0).toNat ≤ 0xFFFF ∧
    0xFFFF < ((regs2 1 0).setI 0xFFFF).i.toNat + (((regs2 1 0).setI 0xFFFF).reg 0).toNat := by decide

/-- Stores at both ends of the writable range, with canonical memory. -/
theorem witness_store : State.reset.mem.wf ∧ (∀ k, k < 3 → ¬ StoreFails ((State.reset.setI 0x050).i.toNat + k)) ∧
    ∀ k, k ≤ (15 : Reg).val → ¬ StoreFails ((State.reset.setI 0xFF0).i.toNat + k) := by
  unfold StoreFails
  decide

theorem witness_fetchSees : State.reset.mem.wf ∧ (∀ k, k ≤ (1 : Reg).val → ¬ StoreFails ((State.reset.setI 0xFFC).i.toNat + k)) ∧
    (1 : Reg) ≤ 1 ∧ (1 : Reg).val = (0 : Reg).val + 1 := by
  unfold StoreFails
  decide

/-- The first failing address below the writable range, and above it. -/
theorem witness_store_fails : StoreFails ((State.reset.setI 0x04F).i.toNat + 0) ∧
    StoreFails ((State.reset.setI 0xFFE).i.toNat + 2) ∧ ∀ j, j < 2 → ¬ StoreFails ((State.reset.setI 0xFFE).i.toNat + j) := by
  unfold StoreFails
  decide

theorem witness_load_block : (∀ k, k ≤ (15 : Reg).val → (State.reset.setI 0xFF0).i.toNat + k ≤ 0xFFF) ∧
    15 ≤ (15 : Reg).val ∧ 0xFFF < (State.reset.setI 0xFF1).i.toNat + 15 ∧
    ∀ j, j < 15 → (State.reset.setI 0xFF1).i.toNat + j ≤ 0xFFF := by decide

theorem witness_registers : (0 : Reg) ≤ 2 ∧ (2 : Reg) ≤ 2 ∧ (2 : Reg) < 3 ∧ (1 : Reg) ≤ 1 ∧ (1 : Reg).val = (0 : Reg).val + 1 := by
  decide

end Sys2Proof.Tests
end

section
/-! SUPPORT. The host's input calls and accessors (10_state.md R38 to R42): what each answers, and that an input call writes its own
element of the state only. -/

namespace Sys2Proof.Machine

/-! ### The keys (10_state.md R38) -/

theorem State.setKey_key_self (s : State) (k : Key) (p : Bool) : (s.setKey k p).keys[k] = p := by
  simp only [State.setKey_keys, Fin.getElem_fin, Vector.getElem_set_self]

theorem State.setKey_key_ne (s : State) {k q : Key} (h : q ≠ k) (p : Bool) :
    (s.setKey k p).keys[q] = s.keys[q] := by
  have hval : k.val ≠ q.val := fun e => h (Fin.ext e.symm)
  simp only [State.setKey_keys, Fin.getElem_fin, Vector.getElem_set_ne _ _ hval]

theorem changesOnly_setKey (s : State) (k : Key) (p : Bool) : ChangesOnly [.key k] s (s.setKey k p) := by
  intro part hpart
  cases part with
  | key q =>
    have hq : q ≠ k := fun e => hpart (List.mem_singleton.2 (congrArg Part.key e))
    exact s.setKey_key_ne hq p
  | _ => rfl

/-! ### The reported key (10_state.md R39) -/

theorem changesOnly_setRkey (s : State) (k : Option Key) : ChangesOnly [.rkey] s (s.setRkey k) := by
  intro part hpart
  cases part with
  | rkey => exact absurd (List.mem_singleton.2 rfl) hpart
  | _ => rfl

/-! ### What the calls answer (10_state.md R37 to R42) -/

section
variable (s : State)

@[simp] theorem hostCall_setKeypad (k : Key) (p : Bool) : hostCall (.setKeypad k p) s = .next (s.setKey k p, .ok) := rfl
@[simp] theorem hostCall_reportKeyPressed (k : Option Key) :
    hostCall (.reportKeyPressed k) s = .next (s.setRkey k, .ok) := rfl
@[simp] theorem hostCall_display : hostCall .display s = .next (s, .cells s.disp) := rfl
@[simp] theorem hostCall_isRunning : hostCall .isRunning s = .next (s, .flag s.running) := rfl
@[simp] theorem hostCall_dump : hostCall .dump s = .next (s, .snapshot s.snapshot) := rfl

@[simp] theorem State.snapshot_v : s.snapshot.v = s.v := rfl
@[simp] theorem State.snapshot_dt : s.snapshot.dt = s.dt := rfl
@[simp] theorem State.snapshot_st : s.snapshot.st = s.st := rfl
@[simp] theorem State.snapshot_pc : s.snapshot.pc = s.pc := rfl
@[simp] theorem State.snapshot_i : s.snapshot.i = s.i := rfl

end

/-! ### The obligations -/

/-- Settles O26: each input call answers the state after its one setter, whose frame is `changesOnly_setKey` or
`changesOnly_setRkey`. -/
theorem inputCallsWriteOneElement : Obligations.InputCallsWriteOneElement :=
  ⟨fun s k p => ⟨s.setKey k p, hostCall_setKeypad s k p, s.setKey_key_self k p, changesOnly_setKey s k p⟩,
    fun s k => ⟨s.setRkey k, hostCall_reportKeyPressed s k, s.setRkey_rkey k, changesOnly_setRkey s k⟩⟩

/-- Settles O27: each accessor answers the state it was given, beside the element it copies. -/
theorem accessorsReadAndChangeNothing : Obligations.AccessorsReadAndChangeNothing := fun s =>
  ⟨⟨s.disp, hostCall_display s, fun _ _ => rfl⟩, hostCall_isRunning s,
    s.snapshot, hostCall_dump s, fun r => congrArg (·[r]) s.snapshot_v, s.snapshot_dt, s.snapshot_st, s.snapshot_pc, s.snapshot_i⟩

end Sys2Proof.Machine
end

section
/-! SUPPORT. The step cycle (40_cycle.md): what each branch of a step does to the elements that the cycle itself works with (the timers,
the key wait, the run flag), and which instructions write them. -/

namespace Sys2Proof.Machine

/-! ### Frames of the updates the cycle makes -/

theorem changesOnly_setPc (s : State) (w : Word) : ChangesOnly [.pc] s (s.setPc w) := by
  intro part hpart
  cases part with
  | pc => exact absurd (List.mem_singleton.2 rfl) hpart
  | _ => rfl

theorem changesOnly_setRunning (s : State) (b : Bool) : ChangesOnly [.running] s (s.setRunning b) := by
  intro part hpart
  cases part with
  | running => exact absurd (List.mem_singleton.2 rfl) hpart
  | _ => rfl

/-! ### The timer sub-step (R102, R103) -/

theorem countDown_zero : countDown 0 = 0 := rfl

theorem countDown_toNat_of_ne {b : Byte} (h : countDown b ≠ b) : (countDown b).toNat + 1 = b.toNat := by
  have hb : b.toNat ≠ 0 := fun h0 => h (BitVec.eq_of_toNat_eq (by rw [countDown_toNat, h0]))
  rw [countDown_toNat]
  omega

theorem timerSubStep_dt (period now : Nat) (s : State) :
    (timerSubStep period now s).dt = s.dt ∨ (timerSubStep period now s).dt = countDown s.dt := by
  rcases timerSubStep_cases period now s with h | h <;> rw [h]
  · exact .inl rfl
  · exact .inr rfl

theorem timerSubStep_st (period now : Nat) (s : State) :
    (timerSubStep period now s).st = s.st ∨ (timerSubStep period now s).st = countDown s.st := by
  rcases timerSubStep_cases period now s with h | h <;> rw [h]
  · exact .inl rfl
  · exact .inr rfl

/-- A timer that is left alone or counted down stays at 0, and falls by exactly 1 where it changes. -/
theorem timer_counts_down {a b : Byte} (h : b = a ∨ b = countDown a) :
    (a = 0 → b = 0) ∧ (b ≠ a → b.toNat + 1 = a.toNat) := by
  rcases h with rfl | rfl
  · exact ⟨id, fun hne => absurd rfl hne⟩
  · exact ⟨fun h0 => h0 ▸ countDown_zero, countDown_toNat_of_ne⟩

theorem timer_le {a b : Byte} (h : b = a ∨ b = countDown a) : b.toNat ≤ a.toNat := by
  rcases h with rfl | rfl
  · exact le_refl _
  · rw [countDown_toNat]
    exact Nat.sub_le _ _

theorem State.ticked_dt_le (s : State) : s.ticked.dt.toNat ≤ s.dt.toNat :=
  timer_le (timerSubStep_dt _ _ s)

theorem State.ticked_st_le (s : State) : s.ticked.st.toNat ≤ s.st.toNat :=
  timer_le (timerSubStep_st _ _ s)

/-! ### The waiting step (R105, R106) -/

/-- The state after a resolution: the pending register gets the key, the wait and the report are cleared, pc advances. -/
def State.resolved (s : State) (r : Reg) (k : Key) : State :=
  (((s.setReg r (BitVec.ofNat 8 k.val)).setWait none).setRkey none).setPc (s.pc + 2)

theorem waitStep_key {s : State} {k : Key} (r : Reg) (h : s.rkey = some k) : waitStep r s = s.resolved r k := by
  rw [waitStep, h]
  rfl

theorem waitStep_noKey {s : State} (r : Reg) (h : s.rkey = none) : waitStep r s = s := by
  rw [waitStep, h]

section
variable (s : State) (r : Reg)

@[simp] theorem waitStep_dt : (waitStep r s).dt = s.dt := by unfold waitStep; split <;> rfl
@[simp] theorem waitStep_st : (waitStep r s).st = s.st := by unfold waitStep; split <;> rfl
@[simp] theorem waitStep_running : (waitStep r s).running = s.running := by unfold waitStep; split <;> rfl
@[simp] theorem waitStep_fault : (waitStep r s).fault = s.fault := by unfold waitStep; split <;> rfl

theorem State.resolved_reg (k : Key) : ((s.resolved r k).reg r).toNat = k.val := by
  have hk := k.isLt
  simp only [State.resolved, State.setPc_reg, State.setRkey_reg, State.setWait_reg, State.setReg_reg_self, BitVec.toNat_ofNat]
  omega

theorem changesOnly_resolved (k : Key) : ChangesOnly [.reg r, .wait, .rkey, .pc] s (s.resolved r k) := by
  intro part hpart
  cases part with
  | reg q =>
    have hq : q ≠ r := fun e => hpart (List.mem_cons.2 (.inl (congrArg Part.reg e)))
    exact State.setReg_reg_ne s hq _
  | wait | rkey | pc => simp at hpart
  | _ => rfl

end

theorem step_waiting_key {s : State} {r : Reg} {k : Key} (hlive : s.Live) (hw : s.wait = some r) (hk : s.rkey = some k) :
    step s = .next (s.ticked.resolved r k) := by
  rw [step_waiting hlive.2 hlive.1 hw, waitStep_key r (by rw [State.ticked_rkey, hk])]

theorem step_waiting_noKey {s : State} {r : Reg} (hlive : s.Live) (hw : s.wait = some r) (hk : s.rkey = none) :
    step s = .next s.ticked := by
  rw [step_waiting hlive.2 hlive.1 hw, waitStep_noKey r (by rw [State.ticked_rkey, hk])]

/-! ### Fetch and dispatch (R107, R111) -/

theorem State.Fetches.running_true {s : State} (h : s.Fetches) : s.running = true := h.2.1

theorem State.Fetches.wait_none {s : State} (h : s.Fetches) : s.wait = none := h.2.2.1

theorem executeWord_valid {w : Word} {i : Instr} (s : State) (h : decodeWord w = some i) : executeWord w s = exec i s := by
  rw [executeWord, h]

theorem executeWord_invalid {w : Word} (s : State) (h : decodeWord w = none) :
    executeWord w s = .next (s.raise (.invalidOpcode w)) := by
  rw [executeWord, h]

/-! ### The instructions that write what the cycle works with -/

/-- The elements the step cycle works with, beside pc and the fault record. -/
structure CycleParts where
  dt : Byte
  st : Byte
  keys : Vector Bool 16
  wait : Option Reg
  rkey : Option Key
  running : Bool
  romLen : Nat
  tLast : Nat
  now : Nat

def State.cycleParts (s : State) : CycleParts :=
  { dt := s.dt, st := s.st, keys := s.keys, wait := s.wait, rkey := s.rkey, running := s.running, romLen := s.romLen,
    tLast := s.tLast, now := s.now }

/-- An instruction whose one check gives a value or a fault: it writes the state made from the value, or raises the fault. -/
theorem complete_bind_cases {α : Type} {s t : State} {e : Except FaultKind α} {f : α → State}
    (h : complete s (e >>= fun a => .ok (f a)) = .next t) :
    (∃ a, e = .ok a ∧ t = f a) ∨ ∃ k, e = .error k ∧ t = s.raise k := by
  cases e with
  | ok a => exact .inl ⟨a, rfl, by cases h; rfl⟩
  | error k => exact .inr ⟨k, rfl, by cases h; rfl⟩

/-- Where the state written keeps the cycle's elements, so does the instruction: raising a fault keeps them too. -/
theorem complete_bind_cycleParts {α : Type} {s t : State} {e : Except FaultKind α} {f : α → State}
    (h : complete s (e >>= fun a => .ok (f a)) = .next t) (hf : ∀ a, e = .ok a → (f a).cycleParts = s.cycleParts) :
    t.cycleParts = s.cycleParts := by
  rcases complete_bind_cases h with ⟨a, ha, rfl⟩ | ⟨k, -, rfl⟩
  · exact hf a ha
  · rfl

theorem State.push_cycleParts {s t : State} {w : Word} (h : s.push w = .ok t) : t.cycleParts = s.cycleParts := by
  by_cases hs : s.sp.val < 16
  · rw [State.push_ok s w hs] at h
    cases h
    rfl
  · rw [State.push_full s w (by omega)] at h
    cases h

theorem State.pop_cycleParts {s : State} {p : Word × State} (h : s.pop = .ok p) : p.2.cycleParts = s.cycleParts := by
  by_cases hs : 0 < s.sp.val
  · rw [State.pop_ok s hs] at h
    cases h
    rfl
  · rw [State.pop_empty s (by omega)] at h
    cases h

/-- Of the elements the cycle works with, the two timer loads write their timer, `LD Vx, K` writes the wait, and no instruction writes
another (44_timer_keypad.md R221 to R223). -/
theorem exec_cycleParts {i : Instr} {s t : State} (h : exec i s = .next t) :
    t.cycleParts = s.cycleParts ∨ (∃ x, i = .ldDtVx x ∧ t = (s.setDt (s.reg x)).advance) ∨
      (∃ x, i = .ldStVx x ∧ t = (s.setSt (s.reg x)).advance) ∨ ∃ x, i = .ldVxK x ∧ t = s.setWait (some x) := by
  cases i
  case ldDtVx x =>
    cases h
    exact .inr (.inl ⟨x, rfl, rfl⟩)
  case ldStVx x =>
    cases h
    exact .inr (.inr (.inl ⟨x, rfl, rfl⟩))
  case ldVxK x =>
    cases h
    exact .inr (.inr (.inr ⟨x, rfl, rfl⟩))
  case call => exact .inl (complete_bind_cycleParts h fun u hu => State.push_cycleParts (t := u) hu)
  case ret =>
    exact .inl (complete_bind_cycleParts (e := s.pop) (f := fun p => p.2.setPc p.1) h
      fun p hp => State.pop_cycleParts (p := p) hp)
  case skp | sknp | jpV0 | drw | addI | ldB | storeRegs | loadRegs =>
    exact .inl (complete_bind_cycleParts h fun _ _ => rfl)
  all_goals
    cases h
    exact .inl rfl

theorem exec_dt {i : Instr} {s t : State} (h : exec i s = .next t) : t.dt = s.dt ∨ ∃ x, i = .ldDtVx x := by
  rcases exec_cycleParts h with h | ⟨x, hi, -⟩ | ⟨x, -, rfl⟩ | ⟨x, -, rfl⟩
  · exact .inl (congrArg CycleParts.dt h)
  · exact .inr ⟨x, hi⟩
  · exact .inl rfl
  · exact .inl rfl

theorem exec_st {i : Instr} {s t : State} (h : exec i s = .next t) : t.st = s.st ∨ ∃ x, i = .ldStVx x := by
  rcases exec_cycleParts h with h | ⟨x, -, rfl⟩ | ⟨x, hi, -⟩ | ⟨x, -, rfl⟩
  · exact .inl (congrArg CycleParts.st h)
  · exact .inl rfl
  · exact .inr ⟨x, hi⟩
  · exact .inl rfl

theorem exec_wait {i : Instr} {s t : State} (h : exec i s = .next t) :
    t.wait = s.wait ∨ ∃ x, i = .ldVxK x ∧ t.wait = some x := by
  rcases exec_cycleParts h with h | ⟨x, -, rfl⟩ | ⟨x, -, rfl⟩ | ⟨x, hi, rfl⟩
  · exact .inl (congrArg CycleParts.wait h)
  · exact .inl rfl
  · exact .inl rfl
  · exact .inr ⟨x, hi, rfl⟩

theorem exec_running {i : Instr} {s t : State} (h : exec i s = .next t) : t.running = s.running := by
  rcases exec_cycleParts h with h | ⟨x, -, rfl⟩ | ⟨x, -, rfl⟩ | ⟨x, -, rfl⟩
  · exact congrArg CycleParts.running h
  · rfl
  · rfl
  · rfl

/-! ### Steps -/

/-- A step that executes no instruction raises no timer. -/
theorem step_timers_le_or_exec {s t : State} (h : step s = .next t) :
    (t.dt.toNat ≤ s.dt.toNat ∧ t.st.toNat ≤ s.st.toNat) ∨
      (s.Fetches ∧ ∃ i, decodeWord s.wordAtPc = some i ∧ exec i s.ticked = .next t) := by
  have hticked := And.intro s.ticked_dt_le s.ticked_st_le
  obtain ⟨-, ⟨-, rfl⟩ | ⟨-, r, -, rfl⟩ | ⟨-, -, -, rfl⟩ | ⟨-, -, rfl⟩ | hexec⟩ := step_cases h
  · exact .inl ⟨le_refl _, le_refl _⟩
  · rw [waitStep_dt, waitStep_st]
    exact .inl hticked
  · exact .inl hticked
  · exact .inl hticked
  · exact .inr hexec

/-- A live step that fetches still runs: what it executes, or the fault it raises, leaves the run flag alone. -/
theorem step_fetching_running {s : State} (h : s.Fetches) : ∃ t, step s = .next t ∧ t.running = true := by
  have hrun : s.ticked.running = true := s.ticked_running.trans h.running_true
  rw [step_fetching h]
  cases hd : decodeWord s.wordAtPc with
  | none => exact ⟨_, executeWord_invalid _ hd, hrun⟩
  | some i =>
    obtain ⟨t, ht⟩ := exec_answers_next i s.ticked
    exact ⟨t, (executeWord_valid _ hd).trans ht, (exec_running ht).trans hrun⟩

/-! ### The host's calls in an ended state (R104) -/

/-- The host's step of an ended state only records the time. -/
theorem hostStep_ended {s : State} (h : s.EndedBadly ∨ s.EndedNormally) (now : Nat) :
    ∃ r, s.hostStep now = .next (s.setNow now, r) := by
  rcases h with hbad | ⟨hrun, hfault⟩
  · obtain ⟨f, hf⟩ := Option.ne_none_iff_exists'.1 hbad
    exact ⟨.fault f, by rw [State.hostStep, step_faulted (s := s.setNow now) hf]⟩
  · exact ⟨(s.setNow now).reply, by rw [State.hostStep, step_halted (s := s.setNow now) hfault hrun]⟩

/-- In an ended state every call but `reset` and `load` keeps the fault record and the run flag. -/
theorem hostCall_ended {c : HostCall} {s t : State} {r : Reply} (hreset : ∀ now, c ≠ .reset now)
    (hload : ∀ bytes now, c ≠ .load bytes now) (h : hostCall c s = .next (t, r)) (hend : s.EndedBadly ∨ s.EndedNormally) :
    t.fault = s.fault ∧ t.running = s.running := by
  cases c with
  | reset now => exact absurd rfl (hreset now)
  | load bytes now => exact absurd rfl (hload bytes now)
  | step now =>
    obtain ⟨r', hstep⟩ := hostStep_ended hend now
    rw [hostCall, hstep] at h
    split at h <;> cases h
    exact ⟨rfl, rfl⟩
  | setKeypad | reportKeyPressed | display | isRunning | dump =>
    cases h
    exact ⟨rfl, rfl⟩

/-! ### The obligations -/

/-- Settles O7: the two ended branches of the step, and the calls of an ended state (`hostCall_ended`). -/
theorem haltedAndFaultedStepsChangeNothing : Obligations.HaltedAndFaultedStepsChangeNothing := by
  refine ⟨fun s f hf => step_faulted hf, fun s ⟨hrun, hfault⟩ => step_halted hfault hrun, ?_⟩
  intro c s t r hreset hload hcall
  refine ⟨fun hbad => (hostCall_ended hreset hload hcall (.inl hbad)).1, fun hnormal => ?_⟩
  obtain ⟨hfault, hrun⟩ := hostCall_ended hreset hload hcall (.inr hnormal)
  exact ⟨hrun.trans hnormal.1, hfault.trans hnormal.2⟩

/-- Settles O9: the sub-step only counts down, and the instruction a step runs raises a timer only if it is that timer's load. -/
theorem onlyTimerLoadsRaiseTimers : Obligations.OnlyTimerLoadsRaiseTimers := by
  constructor
  · intro period now s
    obtain ⟨hdt0, hdt⟩ := timer_counts_down (timerSubStep_dt period now s)
    obtain ⟨hst0, hst⟩ := timer_counts_down (timerSubStep_st period now s)
    exact ⟨hdt0, hst0, hdt, hst⟩
  · intro s t hstep
    rcases step_timers_le_or_exec hstep with ⟨hdt, hst⟩ | ⟨hfetch, i, hi, hexec⟩
    · exact ⟨fun hlt => absurd hdt (not_le.2 hlt), fun hlt => absurd hst (not_le.2 hlt)⟩
    · constructor <;> intro hlt
      · rcases exec_dt hexec with hsame | ⟨x, rfl⟩
        · exact absurd s.ticked_dt_le (not_le.2 (hsame ▸ hlt))
        · exact ⟨hfetch, x, hi⟩
      · rcases exec_st hexec with hsame | ⟨x, rfl⟩
        · exact absurd s.ticked_st_le (not_le.2 (hsame ▸ hlt))
        · exact ⟨hfetch, x, hi⟩

/-- Settles O10: a waiting step is `waitStep` after the sub-step, and by the cases of a step only `LD Vx, K` and a resolution change the
wait. -/
theorem keyWaitSuspendsDispatch : Obligations.KeyWaitSuspendsDispatch := by
  constructor
  · intro s r hlive hw
    refine ⟨⟨_, step_waiting hlive.2 hlive.1 hw, ?_, ?_⟩, step_waiting_noKey hlive hw⟩
    · rw [waitStep_fault, State.ticked_fault, hlive.2]
    · rw [waitStep_running, State.ticked_running, hlive.1]
  · intro s t hstep hne
    obtain ⟨-, ⟨-, rfl⟩ | ⟨-, r, hw, rfl⟩ | ⟨-, -, -, rfl⟩ | ⟨-, -, rfl⟩ | ⟨hfetch, i, hi, hexec⟩⟩ := step_cases hstep
    · exact absurd rfl hne
    · cases hk : s.ticked.rkey with
      | none => exact absurd (by rw [waitStep_noKey r hk, State.ticked_wait]) hne
      | some k =>
        rw [waitStep_key r hk]
        have hkey : s.rkey = some k := s.ticked_rkey.symm.trans hk
        exact .inr ⟨hw ▸ Option.some_ne_none r, hkey ▸ Option.some_ne_none k, rfl⟩
    · exact absurd s.ticked_wait hne
    · exact absurd s.ticked_wait hne
    · rcases exec_wait hexec with hsame | ⟨x, rfl, hx⟩
      · exact absurd (hsame.trans s.ticked_wait) hne
      · exact .inl ⟨hfetch.wait_none, hfetch, x, hi, hx⟩

/-- Settles O5: a fetching step is `executeWord` of the word at pc, and that is the instruction or the fault. -/
theorem stepRunsDecodedInstruction : Obligations.StepRunsDecodedInstruction := by
  intro s hfetch
  refine ⟨fun i hi => (step_fetching hfetch).trans (executeWord_valid _ hi), fun hnone => ?_⟩
  refine ⟨_, (step_fetching hfetch).trans (executeWord_invalid _ hnone), ?_, changesOnly_raise _ _⟩
  rw [State.raise_eq, State.setFault_fault, State.ticked_pc]

/-- Settles O11: the step is the resolution of the state after the sub-step, or that state itself. -/
theorem reportedKeyResolvesWait : Obligations.ReportedKeyResolvesWait := by
  intro s r hlive hw
  refine ⟨fun k hk => ⟨_, step_waiting_key hlive hw hk, State.resolved_reg _ r k, rfl, rfl, ?_, changesOnly_resolved _ r k⟩,
    step_waiting_noKey hlive hw⟩
  rw [State.resolved, State.setPc_pc, State.ticked_pc]

/-- Settles O13: the ending branch of a step clears the run flag alone, and a fetching step keeps it. -/
theorem terminationCheckEndsRun : Obligations.TerminationCheckEndsRun := by
  intro s ⟨hrun, hfault⟩ hw
  constructor
  · intro hend
    exact ⟨_, step_ending hfault hrun hw hend, ⟨rfl, s.ticked_fault.trans hfault⟩, changesOnly_setRunning _ _⟩
  · intro hlimit hrom
    exact step_fetching_running ⟨hfault, hrun, hw, hlimit, hrom⟩

/-- Settles O29: the zero word is NOP, which sets pc alone. -/
theorem nopOnlyAdvances : Obligations.NopOnlyAdvances :=
  ⟨by unfold Encodes; decide, fun s => ⟨s.setPc (s.pc + 2), rfl, rfl, changesOnly_setPc s _⟩⟩

end Sys2Proof.Machine
end

section
/-! SUPPORT. The fields of an instruction word (30_encoding.md R81) as numbers, and what they are in the words of formats XK and XYN (R82);
the words that decode to an instruction of families 6, 7 and 8 (R84). -/

namespace Sys2Proof.Machine
open Laws.TableRow (encodeXK_toNat encodeXYN_toNat)

/-! ### The fields of a word -/

section
variable (w : Word)

theorem fieldMajor_val : (fieldMajor w).val = w.toNat / 4096 := by
  have hw := w.isLt
  simp only [fieldMajor, BitVec.val_toFin, BitVec.extractLsb'_toNat, Nat.shiftRight_eq_div_pow]
  omega

theorem fieldX_val : (fieldX w).val = w.toNat / 256 % 16 := by
  simp only [fieldX, BitVec.val_toFin, BitVec.extractLsb'_toNat, Nat.shiftRight_eq_div_pow, Nat.reducePow]

theorem fieldY_val : (fieldY w).val = w.toNat / 16 % 16 := by
  simp only [fieldY, BitVec.val_toFin, BitVec.extractLsb'_toNat, Nat.shiftRight_eq_div_pow, Nat.reducePow]

theorem fieldN_val : (fieldN w).val = w.toNat % 16 := by
  simp only [fieldN, BitVec.val_toFin, BitVec.extractLsb'_toNat, Nat.shiftRight_zero, Nat.reducePow]

theorem fieldKk_toNat : (fieldKk w).toNat = w.toNat % 256 := by
  simp only [fieldKk, BitVec.extractLsb'_toNat, Nat.shiftRight_zero, Nat.reducePow]

end

/-! ### The fields of a word of format XK -/

section
variable (major : Fin 16) (x : Reg) (kk : Byte)

@[simp] theorem fieldMajor_encodeXK : fieldMajor (encodeXK major x kk) = major := by
  apply Fin.ext
  rw [fieldMajor_val, encodeXK_toNat]
  omega

@[simp] theorem fieldX_encodeXK : fieldX (encodeXK major x kk) = x := by
  apply Fin.ext
  rw [fieldX_val, encodeXK_toNat]
  omega

@[simp] theorem fieldKk_encodeXK : fieldKk (encodeXK major x kk) = kk := by
  apply BitVec.eq_of_toNat_eq
  rw [fieldKk_toNat, encodeXK_toNat]
  omega

end

/-! ### The fields of a word of format XYN -/

section
variable (major : Fin 16) (x y : Reg) (n : Fin 16)

@[simp] theorem fieldMajor_encodeXYN : fieldMajor (encodeXYN major x y n) = major := by
  apply Fin.ext
  rw [fieldMajor_val, encodeXYN_toNat]
  omega

@[simp] theorem fieldX_encodeXYN : fieldX (encodeXYN major x y n) = x := by
  apply Fin.ext
  rw [fieldX_val, encodeXYN_toNat]
  omega

@[simp] theorem fieldY_encodeXYN : fieldY (encodeXYN major x y n) = y := by
  apply Fin.ext
  rw [fieldY_val, encodeXYN_toNat]
  omega

@[simp] theorem fieldN_encodeXYN : fieldN (encodeXYN major x y n) = n := by
  apply Fin.ext
  rw [fieldN_val, encodeXYN_toNat]
  omega

end

/-! ### Families 6 and 7 -/

theorem encodes_ldImm (x : Reg) (kk : Byte) : Encodes (0x6000 + x.val * 0x100 + kk.toNat) (.ldImm x kk) := by
  change decodeWord (encodeXK 0x6 x kk) = _
  simp [decodeWord]

theorem encodes_addImm (x : Reg) (kk : Byte) : Encodes (0x7000 + x.val * 0x100 + kk.toNat) (.addImm x kk) := by
  change decodeWord (encodeXK 0x7 x kk) = _
  simp [decodeWord]

/-! ### Family 8 -/

/-- The word of family 8 with `n` in its low digit decodes to what `n` selects. -/
theorem encodes_familyEight (x y : Reg) (n : Fin 16) {i : Instr} (h : decodeFamilyEight (encodeXYN 0x8 x y n) = some i) :
    Encodes (0x8000 + n.val + x.val * 0x100 + y.val * 0x10) i := by
  have hword : BitVec.ofNat 16 (0x8000 + n.val + x.val * 0x100 + y.val * 0x10) = encodeXYN 0x8 x y n := by
    apply BitVec.eq_of_toNat_eq
    rw [encodeXYN_toNat, BitVec.toNat_ofNat]
    omega
  rw [Encodes, hword, decodeWord, fieldMajor_encodeXYN]
  exact h

end Sys2Proof.Machine
end

section
/-! SUPPORT. The instructions of 41_arith_logic.md end in one of two ways: one register written and pc advanced, or a result and its flag
written in the order of R134 and pc advanced. Each way once, with its frame; the values are those of Laws/Ops.lean. -/

namespace Sys2Proof.Machine

section
variable {i : Instr} {s : State} {x : Reg}

/-! ### One register and pc -/

theorem changesOnly_setReg_advance (s : State) (x : Reg) (b : Byte) :
    ChangesOnly [.reg x, .pc] s (s.setReg x b).advance := by
  intro part hpart
  cases part with
  | reg q =>
    have hq : q ≠ x := fun e => hpart (List.mem_cons.2 (.inl (congrArg Part.reg e)))
    exact State.setReg_reg_ne s hq b
  | pc => simp at hpart
  | _ => rfl

/-- An instruction that leaves `b` in Vx and advances pc. -/
theorem exec_setReg_spec {b : Byte} (h : exec i s = .next (s.setReg x b).advance) :
    ∃ t, exec i s = .next t ∧ t.reg x = b ∧ t.pc = s.pc + 2 ∧ ChangesOnly [.reg x, .pc] s t :=
  ⟨_, h, State.setReg_reg_self s x b, rfl, changesOnly_setReg_advance s x b⟩

/-- The same, with the byte given by its bits. -/
theorem exec_setReg_bits {b : Byte} {f : Nat → Bool} (h : exec i s = .next (s.setReg x b).advance)
    (hb : ∀ k, b.getLsbD k = f k) :
    ∃ t, exec i s = .next t ∧ (∀ k, (t.reg x).getLsbD k = f k) ∧ t.pc = s.pc + 2 ∧ ChangesOnly [.reg x, .pc] s t := by
  obtain ⟨t, ht, hreg, hpc, hframe⟩ := exec_setReg_spec h
  exact ⟨t, ht, hreg ▸ hb, hpc, hframe⟩

/-! ### A result, its flag and pc (R134) -/

theorem State.writeWithFlag_reg_vf (s : State) (x : Reg) (p : Byte × Byte) : (s.writeWithFlag x p).reg vf = p.2 :=
  State.setReg_reg_self _ vf p.2

theorem State.writeWithFlag_reg_result (s : State) (p : Byte × Byte) (hx : x ≠ vf) : (s.writeWithFlag x p).reg x = p.1 :=
  (State.setReg_reg_ne _ hx p.2).trans (State.setReg_reg_self s x p.1)

theorem State.writeWithFlag_reg_ne (s : State) (p : Byte × Byte) {q : Reg} (hx : q ≠ x) (hf : q ≠ vf) :
    (s.writeWithFlag x p).reg q = s.reg q :=
  (State.setReg_reg_ne _ hf p.2).trans (State.setReg_reg_ne s hx p.1)

theorem changesOnly_writeWithFlag_advance (s : State) (x : Reg) (p : Byte × Byte) :
    ChangesOnly [.reg x, .reg vf, .pc] s (s.writeWithFlag x p).advance := by
  intro part hpart
  cases part with
  | reg q =>
    simp only [List.mem_cons, Part.reg.injEq, not_or] at hpart
    obtain ⟨hx, hf, -⟩ := hpart
    exact State.writeWithFlag_reg_ne s p hx hf
  | pc => simp at hpart
  | _ => rfl

/-- An instruction that writes a result and its flag and advances pc: the flag stands in VF, and the result in Vx unless x = 0xF. -/
theorem exec_writeWithFlag_spec {p : Byte × Byte} {result flag : Nat} (h : exec i s = .next (s.writeWithFlag x p).advance)
    (hresult : p.1.toNat = result) (hflag : p.2.toNat = flag) :
    ∃ t, exec i s = .next t ∧ (x ≠ vf → (t.reg x).toNat = result) ∧ (t.reg vf).toNat = flag ∧ t.pc = s.pc + 2 ∧
      ChangesOnly [.reg x, .reg vf, .pc] s t :=
  ⟨_, h, fun hx => (congrArg BitVec.toNat (s.writeWithFlag_reg_result p hx)).trans hresult,
    (congrArg BitVec.toNat (s.writeWithFlag_reg_vf x p)).trans hflag, rfl, changesOnly_writeWithFlag_advance s x p⟩

end

/-! ### The obligations -/

/-- Settles O38: both leave one byte in Vx, the operand or the old Vy. -/
theorem loadImmediateAndCopy : Obligations.LoadImmediateAndCopy := by
  refine ⟨fun x kk s => ⟨encodes_ldImm x kk, exec_setReg_spec rfl⟩,
    fun x y s => ⟨encodes_familyEight x y 0x0 ?_, exec_setReg_spec rfl⟩⟩
  simp [decodeFamilyEight]

/-- Settles O39: the byte left in Vx is the result of `addFlag`, whose flag is dropped. -/
theorem addImmediateWrapsWithoutFlag : Obligations.AddImmediateWrapsWithoutFlag := by
  intro x kk s
  obtain ⟨t, ht, hreg, hpc, hframe⟩ := exec_setReg_spec (i := .addImm x kk) (s := s) rfl
  exact ⟨encodes_addImm x kk, t, ht, hreg ▸ addFlag_result (s.reg x) kk, hpc, hframe⟩

/-- Settles O40: the byte left in Vx is the bit vector's own OR, AND or XOR. -/
theorem logicOperationsBitwise : Obligations.LogicOperationsBitwise := by
  intro x y s
  refine ⟨⟨encodes_familyEight x y 0x1 ?_, exec_setReg_bits rfl fun k => BitVec.getLsbD_or⟩,
    ⟨encodes_familyEight x y 0x2 ?_, exec_setReg_bits rfl fun k => BitVec.getLsbD_and⟩,
    ⟨encodes_familyEight x y 0x3 ?_, exec_setReg_bits rfl fun k => BitVec.getLsbD_xor⟩⟩ <;>
    simp [decodeFamilyEight]

/-- Settles O41: result and flag are those of `addFlag`. -/
theorem addSetsCarry : Obligations.AddSetsCarry := by
  intro x y s
  refine ⟨encodes_familyEight x y 0x4 ?_, exec_writeWithFlag_spec rfl (addFlag_result _ _) (addFlag_flag _ _)⟩
  simp [decodeFamilyEight]

/-- Settles O42: result and flag are those of `subFlag`, for SUBN with the operands exchanged. -/
theorem subtractsSetNoBorrow : Obligations.SubtractsSetNoBorrow := by
  intro x y s
  refine ⟨⟨encodes_familyEight x y 0x5 ?_, exec_writeWithFlag_spec rfl (subFlag_result _ _) (subFlag_flag _ _)⟩,
    ⟨encodes_familyEight x y 0x7 ?_, exec_writeWithFlag_spec rfl (subFlag_result _ _) (subFlag_flag _ _)⟩⟩ <;>
    simp [decodeFamilyEight]

/-- Settles O43: result and flag are those of `shrFlag` and `shlFlag`, which are given Vx alone. -/
theorem shiftsSetBitShiftedOut : Obligations.ShiftsSetBitShiftedOut := by
  intro x y s
  refine ⟨⟨encodes_familyEight x y 0x6 ?_, exec_writeWithFlag_spec rfl (shrFlag_result _) (shrFlag_flag _)⟩,
    ⟨encodes_familyEight x y 0xE ?_, exec_writeWithFlag_spec rfl (shlFlag_result _) (shlFlag_flag _)⟩⟩ <;>
    simp [decodeFamilyEight]

end Sys2Proof.Machine
end

section
/-! SUPPORT. The instruction words of 42_control_flow.md: the fields of a word of format A (30_encoding.md R81, R82), and what the words of
families 1 to 5, 9, B and E decode to (R84, R87). -/

namespace Sys2Proof.Machine
open Laws.TableRow (encodeA_toNat encodeXK_toNat)

/-! ### The fields of a word of format A -/

theorem fieldAddr_toNat (w : Word) : (fieldAddr w).toNat = w.toNat % 4096 := by
  simp only [fieldAddr, BitVec.extractLsb'_toNat, Nat.shiftRight_zero, Nat.reducePow]

section
variable (major : Fin 16) (addr : Addr12)

@[simp] theorem fieldMajor_encodeA : fieldMajor (encodeA major addr) = major := by
  apply Fin.ext
  rw [fieldMajor_val, encodeA_toNat]
  omega

@[simp] theorem fieldAddr_encodeA : fieldAddr (encodeA major addr) = addr := by
  apply BitVec.eq_of_toNat_eq
  rw [fieldAddr_toNat, encodeA_toNat]
  omega

end

/-! ### Families 1, 2 and B -/

section
variable (addr : Addr12)

theorem encodes_jp : Encodes (0x1000 + addr.toNat) (.jp addr) := by
  change decodeWord (encodeA 0x1 addr) = _
  simp [decodeWord]

theorem encodes_call : Encodes (0x2000 + addr.toNat) (.call addr) := by
  change decodeWord (encodeA 0x2 addr) = _
  simp [decodeWord]

theorem encodes_jpV0 : Encodes (0xB000 + addr.toNat) (.jpV0 addr) := by
  change decodeWord (encodeA 0xB addr) = _
  simp [decodeWord]

end

/-! ### Families 3 and 4 -/

section
variable (x : Reg) (kk : Byte)

theorem encodes_seImm : Encodes (0x3000 + x.val * 0x100 + kk.toNat) (.seImm x kk) := by
  change decodeWord (encodeXK 0x3 x kk) = _
  simp [decodeWord]

theorem encodes_sneImm : Encodes (0x4000 + x.val * 0x100 + kk.toNat) (.sneImm x kk) := by
  change decodeWord (encodeXK 0x4 x kk) = _
  simp [decodeWord]

end

/-! ### Families 5 and 9: only a low digit of 0 is valid (R87) -/

section
variable (x y : Reg) (n : Fin 16)

theorem decodeWord_familyFive :
    decodeWord (BitVec.ofNat 16 (0x5000 + x.val * 0x100 + y.val * 0x10 + n.val)) = if n = 0 then some (.seReg x y) else none := by
  change decodeWord (encodeXYN 0x5 x y n) = _
  simp [decodeWord]

theorem decodeWord_familyNine :
    decodeWord (BitVec.ofNat 16 (0x9000 + x.val * 0x100 + y.val * 0x10 + n.val)) = if n = 0 then some (.sneReg x y) else none := by
  change decodeWord (encodeXYN 0x9 x y n) = _
  simp [decodeWord]

end

/-! ### Family E -/

/-- The word of family E with `kk` in its low byte decodes to what `kk` selects. -/
theorem encodes_familyKey (x : Reg) (kk : Byte) {i : Instr} (h : decodeFamilyKey (encodeXK 0xE x kk) = some i) :
    Encodes (0xE000 + kk.toNat + x.val * 0x100) i := by
  have hword : BitVec.ofNat 16 (0xE000 + kk.toNat + x.val * 0x100) = encodeXK 0xE x kk := by
    apply BitVec.eq_of_toNat_eq
    rw [encodeXK_toNat, BitVec.toNat_ofNat]
    omega
  rw [Encodes, hword, decodeWord, fieldMajor_encodeXK]
  exact h

theorem encodes_skp (x : Reg) : Encodes (0xE09E + x.val * 0x100) (.skp x) :=
  encodes_familyKey x 0x9E (by simp [decodeFamilyKey])

theorem encodes_sknp (x : Reg) : Encodes (0xE0A1 + x.val * 0x100) (.sknp x) :=
  encodes_familyKey x 0xA1 (by simp [decodeFamilyKey])

end Sys2Proof.Machine
end

section
/-! SUPPORT. What each instruction of 42_control_flow.md answers: pc written alone, the stack and pc written, or a fault raised. Each way
once, with its frame; the conditions of the two answers are those of Laws/Ops.lean. -/

namespace Sys2Proof.Machine

section
variable {i : Instr} {s : State}

/-! ### Answers shared by the instructions -/

theorem exec_raise_spec {k : FaultKind} (h : exec i s = .next (s.raise k)) : Raises i s k :=
  ⟨_, h, rfl, changesOnly_raise s k⟩

theorem exec_setPc_spec {w : Word} (h : exec i s = .next (s.setPc w)) :
    ∃ t, exec i s = .next t ∧ t.pc = w ∧ ChangesOnly [.pc] s t :=
  ⟨_, h, rfl, changesOnly_setPc s w⟩

/-- The same, with the target given as a number. -/
theorem exec_setPc_toNat {w : Word} {n : Nat} (h : exec i s = .next (s.setPc w)) (hw : w.toNat = n) :
    ∃ t, exec i s = .next t ∧ t.pc.toNat = n ∧ ChangesOnly [.pc] s t :=
  ⟨_, h, hw, changesOnly_setPc s w⟩

/-- A conditional skip (R170) whose test answers true where `P` holds and false where `Q` holds. -/
theorem exec_skipIf_spec {c : Bool} {P Q : Prop} (h : exec i s = .next (s.skipIf c)) (hskip : P → c = true)
    (hnext : Q → c = false) :
    ∃ t, exec i s = .next t ∧ (P → t.pc = s.pc + 4) ∧ (Q → t.pc = s.pc + 2) ∧ ChangesOnly [.pc] s t :=
  ⟨_, h, fun hP => if_pos (hskip hP), fun hQ => if_neg (Bool.eq_false_iff.1 (hnext hQ)), changesOnly_setPc s _⟩

theorem State.skipIf_not (s : State) (c : Bool) : s.skipIf (!c) = s.setPc (if c then s.pc + 2 else s.pc + 4) := by
  cases c <;> rfl

/-! ### The stack (R171, R172) -/

theorem exec_call_ok (addr : Addr12) (h : s.sp.val < 16) :
    exec (.call addr) s =
      .next ((s.setStack (s.stack.set s.sp.val (s.pc + 2)) ⟨s.sp.val + 1, by omega⟩).setPc (zext16 addr)) := by
  rw [exec, execCall, State.push_ok s _ h]
  rfl

theorem exec_call_full (addr : Addr12) (h : s.sp.val = 16) : exec (.call addr) s = .next (s.raise .stackOverflow) := by
  rw [exec, execCall, State.push_full s _ h]
  rfl

theorem exec_ret_ok (h : 0 < s.sp.val) :
    exec .ret s = .next ((s.setStack s.stack ⟨s.sp.val - 1, by omega⟩).setPc (s.stack[s.sp.val - 1]'(by omega))) := by
  rw [exec, execRet, State.pop_ok s h]
  rfl

theorem exec_ret_empty (h : s.sp.val = 0) : exec .ret s = .next (s.raise .stackUnderflow) := by
  rw [exec, execRet, State.pop_empty s h]
  rfl

/-- One slot, the depth and pc written: the other slots keep their words. -/
theorem changesOnly_setStack_set_setPc (s : State) (j : Fin 16) (w : Word) (n : Fin 17) (target : Word) :
    ChangesOnly [.slot j, .depth, .pc] s ((s.setStack (s.stack.set j.val w) n).setPc target) := by
  intro part hpart
  cases part with
  | slot k =>
    have hne : j.val ≠ k.val := fun e => hpart (List.mem_cons.2 (.inl (congrArg Part.slot (Fin.ext e.symm))))
    exact Vector.getElem_set_ne j.isLt k.isLt hne
  | depth | pc => simp at hpart
  | _ => rfl

/-- The depth and pc written: every slot keeps its word, the popped one too (10_state.md R25). -/
theorem changesOnly_setDepth_setPc (s : State) (n : Fin 17) (target : Word) :
    ChangesOnly [.depth, .pc] s ((s.setStack s.stack n).setPc target) := by
  intro part hpart
  cases part with
  | depth | pc => simp at hpart
  | _ => rfl

/-! ### The key skips (R177, R178) -/

section
variable {x : Reg}

theorem exec_skp_ok (h : (s.reg x).toNat < 16) : exec (.skp x) s = .next (s.skipIf s.keys[(s.reg x).toNat]) := by
  rw [exec, execSkp, keyPressed_ok h]
  rfl

theorem exec_sknp_ok (h : (s.reg x).toNat < 16) : exec (.sknp x) s = .next (s.skipIf !s.keys[(s.reg x).toNat]) := by
  rw [exec, execSknp, keyPressed_ok h]
  rfl

theorem exec_skp_noKey (h : 16 ≤ (s.reg x).toNat) :
    exec (.skp x) s = .next (s.raise (.keyIndexOutOfRange (s.reg x))) := by
  rw [exec, execSkp, keyPressed_error h]
  rfl

theorem exec_sknp_noKey (h : 16 ≤ (s.reg x).toNat) :
    exec (.sknp x) s = .next (s.raise (.keyIndexOutOfRange (s.reg x))) := by
  rw [exec, execSknp, keyPressed_error h]
  rfl

end

/-! ### The jump to an address plus V0 (R180) -/

section
variable {addr : Addr12}

theorem exec_jpV0_ok (h : addr.toNat + (s.reg 0).toNat ≤ 0xFFF) :
    exec (.jpV0 addr) s = .next (s.setPc (BitVec.ofNat 16 (addr.toNat + (s.reg 0).toNat))) := by
  rw [exec, execJpV0, jumpTarget_ok h]
  rfl

theorem exec_jpV0_outside (h : 0xFFF < addr.toNat + (s.reg 0).toNat) :
    exec (.jpV0 addr) s = .next (s.raise (.jumpOutOfRange (addr.toNat + (s.reg 0).toNat))) := by
  rw [exec, execJpV0, jumpTarget_error h]
  rfl

end

end

/-! ### The obligations -/

/-- Settles O30: JP sets pc alone, to the zero-extended address. -/
theorem jumpGoesToAddress : Obligations.JumpGoesToAddress := fun addr _ =>
  ⟨encodes_jp addr, exec_setPc_toNat rfl (zext16_toNat addr)⟩

/-- Settles O31: below depth 16 the push and the jump write one slot, the depth and pc; at depth 16 the push fails. -/
theorem callPushesReturnAddress : Obligations.CallPushesReturnAddress := by
  intro addr s
  refine ⟨encodes_call addr, fun h => ?_, fun hfull => exec_raise_spec (exec_call_full addr hfull)⟩
  exact ⟨_, exec_call_ok addr h, Vector.getElem_set_self h, rfl, zext16_toNat addr,
    changesOnly_setStack_set_setPc s ⟨s.sp.val, h⟩ _ _ _⟩

/-- Settles O32: above depth 0 the pop writes the depth and pc and leaves the slots; at depth 0 it fails. -/
theorem returnPopsAddress : Obligations.ReturnPopsAddress := by
  refine ⟨by unfold Encodes; decide, fun s => ⟨fun h => ?_, fun hempty => exec_raise_spec (exec_ret_empty hempty)⟩⟩
  exact ⟨_, exec_ret_ok h, rfl, rfl, changesOnly_setDepth_setPc s _ _⟩

/-- Settles O34: both are skips on the comparison of Vx with the immediate. -/
theorem immediateSkips : Obligations.ImmediateSkips := fun x kk _ =>
  ⟨⟨encodes_seImm x kk, exec_skipIf_spec rfl beq_iff_eq.2 beq_eq_false_iff_ne.2⟩,
    ⟨encodes_sneImm x kk, exec_skipIf_spec rfl bne_iff_ne.2 bne_eq_false_iff_eq.2⟩⟩

/-- Settles O35: both are skips on the comparison of Vx with Vy, and families 5 and 9 decode only with a low digit of 0. -/
theorem registerSkips : Obligations.RegisterSkips := by
  intro x y s
  refine ⟨⟨decodeWord_familyFive x y 0, exec_skipIf_spec rfl beq_iff_eq.2 beq_eq_false_iff_ne.2⟩,
    ⟨decodeWord_familyNine x y 0, exec_skipIf_spec rfl bne_iff_ne.2 bne_eq_false_iff_eq.2⟩, fun n hn => ⟨?_, ?_⟩⟩
  · rw [decodeWord_familyFive, if_neg hn]
  · rw [decodeWord_familyNine, if_neg hn]

/-- Settles O36: with Vx the number of a key both are skips on that key's level; otherwise the key lookup fails. -/
theorem keySkips : Obligations.KeySkips := by
  intro x s
  refine ⟨encodes_skp x, encodes_sknp x, fun h => ⟨exec_setPc_spec (exec_skp_ok h), exec_setPc_spec ?_⟩, fun h =>
    ⟨exec_raise_spec (exec_skp_noKey h), exec_raise_spec (exec_sknp_noKey h)⟩⟩
  rw [exec_sknp_ok h, State.skipIf_not]

/-- Settles O37: pc alone is set, to a sum that fits its 16 bits; above 0xFFF the target's check fails. -/
theorem jumpPlusV0 : Obligations.JumpPlusV0 := by
  intro addr s
  refine ⟨encodes_jpV0 addr, fun h => exec_setPc_toNat (exec_jpV0_ok h) ?_, fun h => exec_raise_spec (exec_jpV0_outside h)⟩
  rw [BitVec.toNat_ofNat]
  omega

end Sys2Proof.Machine
end

section
/-! SUPPORT. The instructions of 43_display.md: what CLS and DRW answer, with the frames, and the display and collision flag of a draw as
`Toggles` of the cells under the sprite's 1 bits. The compositor's own laws are those of Laws/Display.lean. -/

namespace Sys2Proof.Machine

/-! ### CLS (R201) -/

theorem blankDisplay_get (c : Fin 64) (r : Fin 32) : blankDisplay[c][r] = false := by
  simp only [blankDisplay, Fin.getElem_fin, Vector.getElem_replicate]

theorem changesWithin_setDisp_advance (s : State) (d : Display) : ChangesWithin ClearPart s (s.setDisp d).advance := by
  intro part hpart
  cases part with
  | cell | pc => exact absurd trivial hpart
  | _ => rfl

/-! ### The block of bytes a sprite is read from (20_memory.md R62) -/

theorem block_inside {a n : Nat} (h : ∀ k, k < n → a + k ≤ 0xFFF) : a + n ≤ 4096 ∨ n = 0 := by
  by_cases hn : n = 0
  · exact .inr hn
  · have hlast := h (n - 1) (by omega)
    exact .inl (by omega)

/-- The first address above 0xFFF of a block is its start, if that is outside, and else 0x1000. -/
theorem block_firstOutside {a k : Nat} (hk : 0xFFF < a + k) (hfirst : ∀ j, j < k → a + j ≤ 0xFFF) : max a 4096 = a + k := by
  rcases block_inside hfirst with h | rfl <;> omega

/-! ### DRW (R202) -/

theorem encodes_drw (x y : Reg) (n : Fin 16) : Encodes (0xD000 + x.val * 0x100 + y.val * 0x10 + n.val) (.drw x y n) := by
  change decodeWord (encodeXYN 0xD x y n) = _
  simp [decodeWord]

/-- The sprite's `n` bytes: byte k is the byte of memory at I + k (R200). -/
def State.spriteBytes (s : State) (n : Nat) : List Byte := (List.range n).map fun k => s.mem.byteAt (s.i.toNat + k)

@[simp] theorem State.spriteBytes_length (s : State) (n : Nat) : (s.spriteBytes n).length = n := by
  simp only [State.spriteBytes, List.length_map, List.length_range]

theorem State.spriteBytes_getD (s : State) {n k : Nat} (h : k < n) :
    (s.spriteBytes n).getD k 0 = s.mem.byteAt (s.i.toNat + k) := by
  simp [State.spriteBytes, List.getD, h]

/-- The display after the draw of `n` bytes at I, and whether a lit cell was toggled. -/
def State.drawn (s : State) (x y : Reg) (n : Nat) : Display × Bool :=
  drawBytes Config.drawWrap (s.reg x).toNat (s.reg y).toNat (s.spriteBytes n) (s.disp, false)

section
variable (s : State) (x y : Reg)

/-- The bytes of the sprite cover exactly the cells that the sprite covers. -/
theorem bytesCover_spriteBytes (n : Nat) :
    BytesCover (s.reg x).toNat (s.reg y).toNat (s.spriteBytes n) = spriteCovers s x y n := by
  funext c r
  simp only [BytesCover, spriteCovers, State.spriteBytes_length, eq_iff_iff]
  constructor
  · rintro ⟨hle, hlt, hcol, hcol', hbit⟩
    rw [s.spriteBytes_getD (by omega)] at hbit
    exact ⟨hcol, hcol', hle, hlt, hbit⟩
  · rintro ⟨hcol, hcol', hle, hlt, hbit⟩
    rw [← s.spriteBytes_getD (n := n) (by omega)] at hbit
    exact ⟨hle, hlt, hcol, hcol', hbit⟩

/-- A draw toggles exactly the cells under 1 bits of the sprite; DRAW_WRAP at its default clips (log 8). -/
theorem State.drawn_toggles (n : Nat) : Toggles (spriteCovers s x y n) (s.disp, false) (s.drawn x y n) :=
  bytesCover_spriteBytes s x y n ▸ drawBytes_toggles _ _ _ _

theorem State.drawn_collision_iff (n : Nat) :
    (s.drawn x y n).2 = true ↔ ∃ c r, spriteCovers s x y n c r ∧ s.disp[c][r] = true := by
  simpa using (s.drawn_toggles x y n).collision

theorem State.drawn_noCollision_iff (n : Nat) :
    (s.drawn x y n).2 = false ↔ ∀ c r, spriteCovers s x y n c r → s.disp[c][r] = false := by
  rw [← Bool.not_eq_true, State.drawn_collision_iff]
  simp only [not_exists, not_and, Bool.not_eq_true]

theorem exec_drw_ok {n : Fin 16} (h : ∀ k, k < n.val → s.i.toNat + k ≤ 0xFFF) :
    exec (.drw x y n) s = .next ((s.setDisp (s.drawn x y n).1).setReg vf (flagByte (s.drawn x y n).2)).advance := by
  rw [exec, execDrw, readBlock_ok _ (block_inside h)]
  rfl

theorem exec_drw_outside {n : Fin 16} {k : Nat} (hn : k < n.val) (hk : 0xFFF < s.i.toNat + k)
    (hfirst : ∀ j, j < k → s.i.toNat + j ≤ 0xFFF) :
    exec (.drw x y n) s = .next (s.raise (.memoryOutOfBounds (s.i.toNat + k))) := by
  rw [exec, execDrw, readBlock_error _ (by omega) (by omega), block_firstOutside hk hfirst]
  rfl

end

theorem changesWithin_setDisp_setVf_advance (s : State) (d : Display) (b : Byte) :
    ChangesWithin DrawPart s ((s.setDisp d).setReg vf b).advance := by
  intro part hpart
  cases part with
  | reg q => exact State.setReg_reg_ne _ hpart b
  | cell | pc => exact absurd trivial hpart
  | _ => rfl

/-! ### The obligations -/

/-- Settles O45: the display is replaced by the blank one and pc advances. -/
theorem clearDisplayBlanksEveryCell : Obligations.ClearDisplayBlanksEveryCell :=
  ⟨by unfold Encodes; decide, fun s => ⟨_, rfl, blankDisplay_get, rfl, changesWithin_setDisp_advance s blankDisplay⟩⟩

/-- Settles O46: with the sprite in memory the draw is `State.drawn`, whose cells and flag are those of `Toggles`; else the block read
fails at its first address outside. -/
theorem drawTogglesExactlyCoveredCells : Obligations.DrawTogglesExactlyCoveredCells := by
  intro x y n s
  refine ⟨encodes_drw x y n, fun hin => ?_, fun k hn hk hfirst => exec_raise_spec (exec_drw_outside s x y hn hk hfirst)⟩
  have htoggles := s.drawn_toggles x y n.val
  have hvf (b : Byte) : (((s.setDisp (s.drawn x y n).1).setReg vf b).advance).reg vf = b := State.setReg_reg_self _ vf b
  refine ⟨_, exec_drw_ok s x y hin, htoggles.covered, htoggles.uncovered, fun hlit => ?_, fun hdark => ?_, rfl,
    changesWithin_setDisp_setVf_advance s _ _⟩
  · rw [hvf, (s.drawn_collision_iff x y n).2 hlit]
    rfl
  · rw [hvf, (s.drawn_noCollision_iff x y n).2 hdark]
    rfl

end Sys2Proof.Machine
end

section
/-! SUPPORT. The instructions of 44_timer_keypad.md, and the words of family F that they and 45_memory_index.md have (30_encoding.md R84):
what each instruction answers (one register, one timer or the key wait written), with its frame. -/

namespace Sys2Proof.Machine

/-! ### Family F -/

/-- The word of family F with `kk` in its low byte decodes to what `kk` selects. -/
theorem encodes_familyMisc (x : Reg) (kk : Byte) {i : Instr} (h : decodeFamilyMisc (encodeXK 0xF x kk) = some i) :
    Encodes (0xF000 + kk.toNat + x.val * 0x100) i := by
  have hword : BitVec.ofNat 16 (0xF000 + kk.toNat + x.val * 0x100) = encodeXK 0xF x kk := by
    apply BitVec.eq_of_toNat_eq
    rw [Laws.TableRow.encodeXK_toNat, BitVec.toNat_ofNat]
    omega
  rw [Encodes, hword, decodeWord, fieldMajor_encodeXK]
  exact h

theorem encodes_ldVxDt (x : Reg) : Encodes (0xF007 + x.val * 0x100) (.ldVxDt x) :=
  encodes_familyMisc x 0x07 (by simp [decodeFamilyMisc])

theorem encodes_ldVxK (x : Reg) : Encodes (0xF00A + x.val * 0x100) (.ldVxK x) :=
  encodes_familyMisc x 0x0A (by simp [decodeFamilyMisc])

theorem encodes_ldDtVx (x : Reg) : Encodes (0xF015 + x.val * 0x100) (.ldDtVx x) :=
  encodes_familyMisc x 0x15 (by simp [decodeFamilyMisc])

theorem encodes_ldStVx (x : Reg) : Encodes (0xF018 + x.val * 0x100) (.ldStVx x) :=
  encodes_familyMisc x 0x18 (by simp [decodeFamilyMisc])

/-! ### The timers and the key wait (R221 to R223) -/

theorem changesOnly_setDt_advance (s : State) (b : Byte) : ChangesOnly [.dt, .pc] s (s.setDt b).advance := by
  intro part hpart
  cases part with
  | dt | pc => simp at hpart
  | _ => rfl

theorem changesOnly_setSt_advance (s : State) (b : Byte) : ChangesOnly [.st, .pc] s (s.setSt b).advance := by
  intro part hpart
  cases part with
  | st | pc => simp at hpart
  | _ => rfl

theorem changesOnly_setWait (s : State) (r : Option Reg) : ChangesOnly [.wait] s (s.setWait r) := by
  intro part hpart
  cases part with
  | wait => simp at hpart
  | _ => rfl

/-! ### The obligations -/

/-- Settles O48: each of the three writes one register or timer and advances pc, so `t_last` stays, like every other part. -/
theorem timerAccess : Obligations.TimerAccess := fun x s =>
  ⟨⟨encodes_ldVxDt x, exec_setReg_spec rfl⟩,
    ⟨encodes_ldDtVx x, _, rfl, rfl, rfl, changesOnly_setDt_advance s (s.reg x)⟩,
    ⟨encodes_ldStVx x, _, rfl, rfl, rfl, changesOnly_setSt_advance s (s.reg x)⟩⟩

/-- Settles O49: the answer is `setWait` alone, whatever `rkey` holds. -/
theorem waitForKeyOnlySetsWait : Obligations.WaitForKeyOnlySetsWait := fun x s =>
  ⟨encodes_ldVxK x, _, rfl, s.setWait_wait (some x), changesOnly_setWait s (some x)⟩

end Sys2Proof.Machine
end

section
/-! SUPPORT. The instructions of 45_memory_index.md: I written, a block of bytes stored at I, or a block of registers loaded from I, each
with its frame. A block's first failing address is found once for stores (20_memory.md R63) and, for loads, as for a sprite. -/

namespace Sys2Proof.Machine

/-! ### The instruction words -/

theorem encodes_ldI (addr : Addr12) : Encodes (0xA000 + addr.toNat) (.ldI addr) := by
  change decodeWord (encodeA 0xA addr) = _
  simp [decodeWord]

theorem encodes_addI (x : Reg) : Encodes (0xF01E + x.val * 0x100) (.addI x) :=
  encodes_familyMisc x 0x1E (by simp [decodeFamilyMisc])

theorem encodes_ldF (x : Reg) : Encodes (0xF029 + x.val * 0x100) (.ldF x) :=
  encodes_familyMisc x 0x29 (by simp [decodeFamilyMisc])

theorem encodes_ldB (x : Reg) : Encodes (0xF033 + x.val * 0x100) (.ldB x) :=
  encodes_familyMisc x 0x33 (by simp [decodeFamilyMisc])

theorem encodes_storeRegs (x : Reg) : Encodes (0xF055 + x.val * 0x100) (.storeRegs x) :=
  encodes_familyMisc x 0x55 (by simp [decodeFamilyMisc])

theorem encodes_loadRegs (x : Reg) : Encodes (0xF065 + x.val * 0x100) (.loadRegs x) :=
  encodes_familyMisc x 0x65 (by simp [decodeFamilyMisc])

/-! ### The index register (R240 to R242) -/

theorem changesOnly_setI_advance (s : State) (w : Word) : ChangesOnly [.index, .pc] s (s.setI w).advance := by
  intro part hpart
  cases part with
  | index | pc => simp at hpart
  | _ => rfl

/-- An instruction that leaves the number `n` in I and advances pc. -/
theorem exec_setI_spec {i : Instr} {s : State} {w : Word} {n : Nat} (h : exec i s = .next (s.setI w).advance)
    (hw : w.toNat = n) :
    ∃ t, exec i s = .next t ∧ t.i.toNat = n ∧ t.pc = s.pc + 2 ∧ ChangesOnly [.index, .pc] s t :=
  ⟨_, h, hw, rfl, changesOnly_setI_advance s w⟩

section
variable {s : State} {x : Reg}

theorem exec_addI_ok (h : s.i.toNat + (s.reg x).toNat ≤ 0xFFFF) :
    exec (.addI x) s = .next (s.setI (BitVec.ofNat 16 (s.i.toNat + (s.reg x).toNat))).advance := by
  rw [exec, execAddI, indexSum_ok h]
  rfl

theorem exec_addI_overflow (h : 0xFFFF < s.i.toNat + (s.reg x).toNat) :
    exec (.addI x) s = .next (s.raise (.indexOverflow (s.i.toNat + (s.reg x).toNat))) := by
  rw [exec, execAddI, indexSum_error h]
  rfl

end

/-! ### Where a block store fails (20_memory.md R63) -/

theorem not_storeFails_iff {a : Nat} : ¬ StoreFails a ↔ 0x50 ≤ a ∧ a ≤ 0xFFF := by
  rw [StoreFails, not_or, Nat.not_lt, Nat.not_lt]

/-- A non-empty block of writable addresses lies in 0x050 .. 0xFFF. -/
theorem block_writable {a n : Nat} (hn : 0 < n) (h : ∀ k, k < n → ¬ StoreFails (a + k)) : 0x50 ≤ a ∧ a + n ≤ 4096 := by
  obtain ⟨hlo, -⟩ := not_storeFails_iff.1 (h 0 hn)
  obtain ⟨-, hhi⟩ := not_storeFails_iff.1 (h (n - 1) (by omega))
  omega

/-- A block write reports its first failing address: one above 0xFFF that the block runs into, or a start in the font. -/
theorem writeBlock_firstFailing (m : Memory) {a k : Nat} {bytes : List Byte} (hk : k < bytes.length)
    (hfail : StoreFails (a + k)) (hfirst : ∀ j, j < k → ¬ StoreFails (a + j)) :
    writeBlock m a bytes = .error (storeFault (a + k)) := by
  have hne : bytes ≠ [] := List.ne_nil_of_length_pos (by omega)
  have hstart (hpos : 0 < k) : 0x50 ≤ a ∧ a + k ≤ 4096 := block_writable hpos hfirst
  by_cases habove : 0xFFF < a + k
  · have hmax : max a 4096 = a + k := block_firstOutside habove fun j hj => (not_storeFails_iff.1 (hfirst j hj)).2
    rw [storeFault, if_pos habove, writeBlock_above m (by omega) (by omega) hne, hmax]
  · have hfont : a + k < 0x50 := hfail.resolve_right habove
    obtain rfl : k = 0 := by omega
    rw [storeFault, if_neg habove]
    exact writeBlock_font m hfont hne

/-! ### Instructions that store bytes at I (R243, R244) -/

/-- The shape LD B, Vx and LD [I], Vx share: the bytes stored from I up, and pc advanced. -/
def State.storeAtI (s : State) (bytes : List Byte) : Result :=
  complete s do
    let m ← writeBlock s.mem s.i.toNat bytes
    .ok (s.setMem m).advance

theorem exec_ldB_eq (x : Reg) (s : State) : exec (.ldB x) s = s.storeAtI (bcdDigits (s.reg x)) := rfl

theorem exec_storeRegs_eq (x : Reg) (s : State) : exec (.storeRegs x) s = s.storeAtI (regsUpTo s x) := rfl

theorem changesWithin_setMem_putBytes_advance (s : State) (a : Nat) (bytes : List Byte) :
    ChangesWithin (StorePart a bytes.length) s (s.setMem (s.mem.putBytes a bytes)).advance := by
  intro part hpart
  cases part with
  | memByte b => exact Memory.byteAt_putBytes_outside s.mem hpart
  | pc => exact absurd trivial hpart
  | _ => rfl

section
variable {i : Instr} {s : State} {bytes : List Byte}

theorem State.storeAtI_ok (hlo : 0x50 ≤ s.i.toNat) (hhi : s.i.toNat + bytes.length ≤ 4096) :
    s.storeAtI bytes = .next (s.setMem (s.mem.putBytes s.i.toNat bytes)).advance := by
  rw [State.storeAtI, writeBlock_ok _ hlo hhi]
  rfl

/-- With writable addresses, every byte stands at its address, and nothing else but pc differs. -/
theorem exec_storeAtI_spec (h : exec i s = s.storeAtI bytes) (hne : bytes ≠ []) (hm : s.mem.wf)
    (hok : ∀ k, k < bytes.length → ¬ StoreFails (s.i.toNat + k)) :
    ∃ t, exec i s = .next t ∧ (∀ k, k < bytes.length → t.mem.byteAt (s.i.toNat + k) = bytes.getD k 0) ∧
      t.pc = s.pc + 2 ∧ ChangesWithin (StorePart s.i.toNat bytes.length) s t := by
  obtain ⟨hlo, hhi⟩ := block_writable (List.length_pos_of_ne_nil hne) hok
  refine ⟨_, h.trans (State.storeAtI_ok hlo hhi), fun k hk => ?_, rfl, changesWithin_setMem_putBytes_advance s _ bytes⟩
  have hin : s.i.toNat ≤ s.i.toNat + k ∧ s.i.toNat + k < s.i.toNat + bytes.length := by omega
  exact (Memory.byteAt_putBytes hm hhi _).trans (by rw [if_pos hin, Nat.add_sub_cancel_left])

/-- Else the fault is that of the first failing address. -/
theorem exec_storeAtI_raises (h : exec i s = s.storeAtI bytes) {k : Nat} (hk : k < bytes.length)
    (hfail : StoreFails (s.i.toNat + k)) (hfirst : ∀ j, j < k → ¬ StoreFails (s.i.toNat + j)) :
    Raises i s (storeFault (s.i.toNat + k)) := by
  apply exec_raise_spec
  rw [h, State.storeAtI, writeBlock_firstFailing _ hk hfail hfirst]
  rfl

end

/-! ### The load of V0 .. Vx from I (R245) -/

/-- The register file after the load: V0 .. Vx from I and up, the registers after them as before. -/
def State.loaded (s : State) (x : Reg) : Vector Byte 16 :=
  regsWith s ((List.range (x.val + 1)).map fun k => s.mem.byteAt (s.i.toNat + k))

section
variable (s : State) (x : Reg)

theorem State.loaded_getElem (q : Reg) :
    (s.loaded x)[q] = if q ≤ x then s.mem.byteAt (s.i.toNat + q.val) else s.reg q := by
  rw [State.loaded, Fin.getElem_fin, regsWith_getElem]
  by_cases hq : q ≤ x
  · have hlt : q.val < x.val + 1 := Nat.lt_succ_of_le hq
    simp [hq, hlt]
  · simp [hq, State.reg]

theorem exec_loadRegs_ok (h : ∀ k, k ≤ x.val → s.i.toNat + k ≤ 0xFFF) :
    exec (.loadRegs x) s = .next (s.setRegs (s.loaded x)).advance := by
  rw [exec, execLoadRegs, readBlock_ok _ (block_inside fun k hk => h k (Nat.le_of_lt_succ hk))]
  rfl

theorem exec_loadRegs_outside {k : Nat} (hx : k ≤ x.val) (hk : 0xFFF < s.i.toNat + k)
    (hfirst : ∀ j, j < k → s.i.toNat + j ≤ 0xFFF) :
    exec (.loadRegs x) s = .next (s.raise (.memoryOutOfBounds (s.i.toNat + k))) := by
  rw [exec, execLoadRegs, readBlock_error _ (by omega) (by omega), block_firstOutside hk hfirst]
  rfl

theorem changesWithin_setRegs_advance {v : Vector Byte 16} (hv : ∀ q : Reg, ¬ q ≤ x → v[q] = s.reg q) :
    ChangesWithin (LoadPart x) s (s.setRegs v).advance := by
  intro part hpart
  cases part with
  | reg q => exact hv q hpart
  | pc => exact absurd trivial hpart
  | _ => rfl

end

/-! ### The obligations -/

/-- Settles O50: I receives the zero-extended address, or the glyph address of Vx. -/
theorem indexLoads : Obligations.IndexLoads :=
  ⟨fun addr _ => ⟨encodes_ldI addr, exec_setI_spec rfl (zext16_toNat addr)⟩,
    fun x s => ⟨encodes_ldF x, exec_setI_spec rfl (glyphAddress_toNat (s.reg x))⟩⟩

/-- Settles O51: I receives a sum that fits its 16 bits; above 0xFFFF the sum's check fails. -/
theorem addToIndex : Obligations.AddToIndex := by
  intro x s
  refine ⟨encodes_addI x, fun h => exec_setI_spec (exec_addI_ok h) ?_, fun h => exec_raise_spec (exec_addI_overflow h)⟩
  rw [BitVec.toNat_ofNat]
  omega

/-- Settles O52: a store of the three digits, each of which fits a byte. -/
theorem bcdStoresDigits : Obligations.BcdStoresDigits := by
  intro x s
  refine ⟨encodes_ldB x, fun hm hok => ?_, fun k hk => exec_storeAtI_raises (exec_ldB_eq x s) hk⟩
  obtain ⟨t, ht, hbytes, hpc, hframe⟩ := exec_storeAtI_spec (exec_ldB_eq x s) (bcdDigits_ne_nil _) hm hok
  have hdigit (k n : Nat) (hk : k < 3) (hn : n < 256) (hd : (bcdDigits (s.reg x)).getD k 0 = BitVec.ofNat 8 n) :
      (t.mem.byteAt (s.i.toNat + k)).toNat = n := by
    rw [hbytes k hk, hd, BitVec.toNat_ofNat]
    exact Nat.mod_eq_of_lt hn
  have hvx := (s.reg x).isLt
  exact ⟨t, ht, hdigit 0 _ (by decide) (by omega) rfl, hdigit 1 _ (by decide) (by omega) rfl,
    hdigit 2 _ (by decide) (by omega) rfl, hpc, hframe⟩

/-- Settles O53: a store of V0 .. Vx. -/
theorem storeBlockWritesRegisters : Obligations.StoreBlockWritesRegisters := by
  intro x s
  have hlen := regsUpTo_length s x
  refine ⟨encodes_storeRegs x, fun hm hok => ?_, fun k hk => exec_storeAtI_raises (exec_storeRegs_eq x s) (by omega)⟩
  obtain ⟨t, ht, hbytes, hpc, hframe⟩ :=
    exec_storeAtI_spec (exec_storeRegs_eq x s) (regsUpTo_ne_nil s x) hm fun k hk => hok k (by omega)
  refine ⟨t, ht, fun r hr => ?_, hpc, hlen ▸ hframe⟩
  have hin : r.val < (regsUpTo s x).length := hlen ▸ Nat.lt_succ_of_le hr
  exact (hbytes r.val hin).trans (regsUpTo_getD s hr)

/-- Settles O54: with the block in memory the register file becomes `State.loaded`; else the block read fails at its first address outside. -/
theorem loadBlockReadsRegisters : Obligations.LoadBlockReadsRegisters := by
  intro x s
  refine ⟨encodes_loadRegs x, fun hin => ?_, fun k hx hk hfirst => exec_raise_spec (exec_loadRegs_outside s x hx hk hfirst)⟩
  exact ⟨_, exec_loadRegs_ok s x hin, fun r hr => (s.loaded_getElem x r).trans (if_pos hr), rfl,
    changesWithin_setRegs_advance s x fun q hq => (s.loaded_getElem x q).trans (if_neg hq)⟩

end Sys2Proof.Machine
end

section
/-! SUPPORT. The decoder (30_encoding.md R84) and the table of invalid words (R87) agree, family by family and on every word. -/

namespace Sys2Proof.Machine

section
variable (w : Word)

theorem decodeFamilyZero_isSome : (decodeFamilyZero w).isSome = WellFormed.familyZero w := by
  simp only [decodeFamilyZero, WellFormed.familyZero, ← BitVec.toNat_inj]
  split_ifs <;> simp_all

/-- Families 5 and 9: the decoder asks for the same low digit as the table. -/
theorem registerSkip_isSome (i : Instr) :
    (if (fieldN w).val = 0 then some i else none).isSome = WellFormed.familyRegisterSkip w := by
  rw [WellFormed.familyRegisterSkip, ← fieldN_val]
  split_ifs <;> simp [*]

theorem decodeFamilyEight_isSome : (decodeFamilyEight w).isSome = WellFormed.familyEight w := by
  rw [decodeFamilyEight, WellFormed.familyEight, ← fieldN_val]
  generalize fieldN w = n
  fin_cases n <;> rfl

theorem decodeFamilyKey_isSome : (decodeFamilyKey w).isSome = WellFormed.familyKey w := by
  rw [decodeFamilyKey, WellFormed.familyKey, ← fieldKk_toNat]
  split <;> simp_all

theorem decodeFamilyMisc_isSome : (decodeFamilyMisc w).isSome = WellFormed.familyMisc w := by
  rw [decodeFamilyMisc, WellFormed.familyMisc, ← fieldKk_toNat]
  split <;> simp_all

/-- The decoder accepts a word exactly where it is not in the table of invalid words. -/
theorem decodeWord_isSome : (decodeWord w).isSome = WellFormed.word w := by
  have hzero := decodeFamilyZero_isSome w
  have hfive := registerSkip_isSome w (.seReg (fieldX w) (fieldY w))
  have height := decodeFamilyEight_isSome w
  have hnine := registerSkip_isSome w (.sneReg (fieldX w) (fieldY w))
  have hkey := decodeFamilyKey_isSome w
  have hmisc := decodeFamilyMisc_isSome w
  rw [decodeWord, WellFormed.word, ← fieldMajor_val]
  generalize fieldMajor w = major
  fin_cases major
  exacts [hzero, rfl, rfl, rfl, rfl, hfive, rfl, rfl, height, hnine, rfl, rfl, rfl, rfl, hkey, hmisc]

end

theorem invalidOpcode_infoInRange {w : Word} (h : decodeWord w = none) : (FaultKind.invalidOpcode w).InfoInRange :=
  (decodeWord_isSome w).symm.trans (congrArg Option.isSome h)

end Sys2Proof.Machine
end

section
/-! SUPPORT. How a step latches a fault (60_exceptions.md R261), and what the host is told of it (R262). -/

namespace Sys2Proof.Machine

/-- A step from a state with no fault latches none, or only raises one, its info in range, after the timer sub-step. -/
theorem step_fault_cases {s t : State} (h : step s = .next t) :
    t.fault = none ∨ ∃ k : FaultKind, k.InfoInRange ∧ t = s.ticked.raise k := by
  obtain ⟨hs, ⟨-, rfl⟩ | ⟨-, r, -, rfl⟩ | ⟨-, -, -, rfl⟩ | ⟨-, hnone, rfl⟩ | ⟨-, i, -, hexec⟩⟩ := step_cases h
  · exact .inl hs
  · exact .inl (by rw [waitStep_fault, State.ticked_fault, hs])
  · exact .inl (s.ticked_fault.trans hs)
  · exact .inr ⟨_, invalidOpcode_infoInRange hnone, rfl⟩
  · exact (exec_fault_cases hexec).imp_left fun hsame => hsame.trans (s.ticked_fault.trans hs)

theorem State.reply_fault {s : State} {f : FaultRecord} (h : s.fault = some f) : s.reply = .fault f := by
  rw [State.reply, h]

/-- A step the host calls at the block's own time is the block's step, with the reply of the state it leaves. -/
theorem hostCall_step_now {s t : State} (h : step s = .next t) : hostCall (.step s.now) s = .next (t, t.reply) := by
  have hnow : s.setNow s.now = s := rfl
  rw [hostCall, if_neg (lt_irrefl _), State.hostStep, hnow, h]

/-! ### The obligation -/

/-- Settles O15: a step that latches a fault is the timer sub-step and the raising, which writes the record alone. -/
theorem faultsArePreciseAndSticky : Obligations.FaultsArePreciseAndSticky := by
  intro s t f _ hstep hf
  obtain hnone | ⟨k, hk, rfl⟩ := step_fault_cases hstep
  · exact absurd (hnone.symm.trans hf) (Option.some_ne_none f).symm
  · have hhost := hostCall_step_now hstep
    rw [State.reply_fault hf] at hhost
    have hrecord : ⟨k, s.ticked.pc⟩ = f := Option.some.inj hf
    subst hrecord
    exact ⟨s.ticked_pc, hk, changesOnly_raise _ k, hhost, step_faulted hf⟩

end Sys2Proof.Machine
end

section
/-! SUPPORT. Reset and load (70_reset_and_hazards.md R290 to R295): what the two calls answer, the state each leaves, and what the first
step after a load finds. -/

namespace Sys2Proof.Machine

/-! ### The reset state (R290, 10_state.md R44) -/

/-- Above the font, the reset contents of memory are zero. -/
theorem Memory.unlisted_eq_zero {a : Nat} (h : 0x50 ≤ a) : Memory.unlisted a = 0 := List.getD_eq_default _ _ h

section
variable (s : State) (now : Nat)

@[simp] theorem State.hostReset_pc : (s.hostReset now).pc = 0x200 := rfl
@[simp] theorem State.hostReset_wait : (s.hostReset now).wait = none := rfl
@[simp] theorem State.hostReset_running : (s.hostReset now).running = true := rfl
@[simp] theorem State.hostReset_romLen : (s.hostReset now).romLen = 0 := rfl
@[simp] theorem State.hostReset_fault : (s.hostReset now).fault = none := rfl

theorem State.hostReset_reg (r : Reg) : (s.hostReset now).reg r = 0 := Vector.getElem_replicate r.isLt

theorem State.hostReset_stack (j : Fin 16) : (s.hostReset now).stack[j] = 0 := Vector.getElem_replicate j.isLt

theorem State.hostReset_keys (k : Key) : (s.hostReset now).keys[k] = false := Vector.getElem_replicate k.isLt

theorem State.hostReset_byteAt (a : Nat) : (s.hostReset now).mem.byteAt a = Memory.unlisted a := rfl

end

/-! ### A ROM in memory (R291) -/

/-- The state with the ROM copied to 0x200 and its length recorded. -/
def State.withRom (s : State) (bytes : List Byte) : State := (s.setMem (s.mem.putBytes 0x200 bytes)).setRomLen bytes.length

section
variable (s : State) (bytes : List Byte)

@[simp] theorem State.withRom_pc : (s.withRom bytes).pc = s.pc := rfl
@[simp] theorem State.withRom_wait : (s.withRom bytes).wait = s.wait := rfl
@[simp] theorem State.withRom_running : (s.withRom bytes).running = s.running := rfl
@[simp] theorem State.withRom_romLen : (s.withRom bytes).romLen = bytes.length := rfl
@[simp] theorem State.withRom_fault : (s.withRom bytes).fault = s.fault := rfl

/-- The copy writes the ROM's bytes and its length, and nothing else. -/
theorem State.withRom_same {p : Part} (hlen : p ≠ .romLen) (hbyte : ∀ k, k < bytes.length → p ≠ .memByte (0x200 + k)) :
    p.Same s (s.withRom bytes) := by
  cases p with
  | romLen => exact absurd rfl hlen
  | memByte a =>
    refine Memory.byteAt_putBytes_outside s.mem fun ⟨hlo, hhi⟩ => hbyte (a - 0x200) (by omega) ?_
    rw [Nat.add_sub_of_le hlo]
  | _ => rfl

end

/-- Over the reset state the ROM reads as its bytes, and as zero past its end. -/
theorem State.withRom_hostReset_byteAt (s : State) {bytes : List Byte} (now : Nat) (h : bytes.length ≤ 3584) (k : Nat) :
    ((s.hostReset now).withRom bytes).mem.byteAt (0x200 + k) = bytes.getD k 0 := by
  have hsize : 0x200 + bytes.length ≤ Config.memSize := Nat.add_le_add_left h 0x200
  refine (Memory.byteAt_putBytes Memory.wf_nil hsize (0x200 + k)).trans ?_
  by_cases hk : k < bytes.length
  · rw [if_pos ⟨Nat.le_add_right _ k, Nat.add_lt_add_left hk _⟩, Nat.add_sub_cancel_left]
  · rw [if_neg fun hin => hk (Nat.lt_of_add_lt_add_left hin.2), List.getD_eq_default _ _ (not_lt.1 hk)]
    exact Memory.unlisted_eq_zero (by omega)

/-! ### What the two calls answer (R290 to R292, 10_state.md R43) -/

theorem State.reply_ok {s : State} (h : s.fault = none) : s.reply = .ok := by
  rw [State.reply, h]

section
variable {s : State} {bytes : List Byte} {now : Nat}

theorem State.hostLoad_fits (h : bytes.length ≤ 3584) : s.hostLoad bytes now = (s.hostReset now).withRom bytes :=
  if_neg (not_lt.2 h)

theorem State.hostLoad_tooLarge (h : 3584 < bytes.length) :
    s.hostLoad bytes now = (s.hostReset now).raise (.romTooLarge bytes.length) :=
  if_pos h

theorem hostCall_reset (hnow : s.now ≤ now) : hostCall (.reset now) s = .next (s.hostReset now, .ok) :=
  if_neg (not_lt.2 hnow)

theorem hostCall_load (hnow : s.now ≤ now) :
    hostCall (.load bytes now) s = .next (s.hostLoad bytes now, (s.hostLoad bytes now).reply) :=
  if_neg (not_lt.2 hnow)

theorem hostCall_load_fits (hnow : s.now ≤ now) (h : bytes.length ≤ 3584) :
    hostCall (.load bytes now) s = .next ((s.hostReset now).withRom bytes, .ok) := by
  rw [hostCall_load hnow, State.hostLoad_fits h, State.reply_ok]
  rw [State.withRom_fault, State.hostReset_fault]

theorem hostCall_load_tooLarge (hnow : s.now ≤ now) (h : 3584 < bytes.length) :
    hostCall (.load bytes now) s =
      .next ((s.hostReset now).raise (.romTooLarge bytes.length), .fault ⟨.romTooLarge bytes.length, 0x200⟩) := by
  rw [hostCall_load hnow, State.hostLoad_tooLarge h, State.reply_fault rfl, State.hostReset_pc]

end

/-! ### The first step after a load (R295) -/

/-- The word at pc is its two bytes, big-endian, with nothing lost. -/
theorem State.wordAtPc_toNat (s : State) :
    s.wordAtPc.toNat = (s.mem.byteAt s.pc.toNat).toNat * 256 + (s.mem.byteAt (s.pc.toNat + 1)).toNat := by
  have hhi := (s.mem.byteAt s.pc.toNat).isLt
  have hlo := (s.mem.byteAt (s.pc.toNat + 1)).isLt
  rw [State.wordAtPc, BitVec.toNat_ofNat]
  omega

section
variable (s : State) (bytes : List Byte) (now : Nat)

theorem State.withRom_hostReset_fetches (h : bytes ≠ []) : ((s.hostReset now).withRom bytes).Fetches := by
  have hlen := List.length_pos_of_ne_nil h
  simp [State.Fetches, hlen]

theorem State.withRom_hostReset_word (h : bytes.length ≤ 3584) :
    ((s.hostReset now).withRom bytes).wordAtPc.toNat = (bytes.getD 0 0).toNat * 256 + (bytes.getD 1 0).toNat := by
  rw [State.wordAtPc_toNat, ← s.withRom_hostReset_byteAt now h 0, ← s.withRom_hostReset_byteAt now h 1]
  rfl

end

/-! ### The obligations -/

/-- Settles O23: the loaded state is the reset state `withRom`, whose bytes and frame are `withRom_hostReset_byteAt` and
`withRom_same`. -/
theorem loadCopiesRomAfterReset : Obligations.LoadCopiesRomAfterReset := fun s bytes now hnow hlen =>
  ⟨_, _, hostCall_reset hnow, hostCall_load_fits hnow hlen, fun k _ => s.withRom_hostReset_byteAt now hlen k,
    State.withRom_romLen _ bytes, fun _ => State.withRom_same _ bytes⟩

/-- Settles O25: a loaded ROM that is not empty puts pc below its end; an empty one leaves pc at its end, where the termination check
ends the run (`terminationCheckEndsRun`). -/
theorem firstStepAfterLoadFetchesRom : Obligations.FirstStepAfterLoadFetchesRom := by
  intro s bytes now hnow hlen
  refine ⟨_, hostCall_load_fits hnow hlen, s.hostReset_pc now, fun hne => ?_, ?_⟩
  · exact ⟨s.withRom_hostReset_fetches bytes now hne, s.withRom_hostReset_word bytes now hlen⟩
  · rintro rfl
    exact (terminationCheckEndsRun _ ⟨s.hostReset_running now, s.hostReset_fault now⟩ (s.hostReset_wait now)).1 (.inr le_rfl)

/-- Settles O22: each element of the reset state by its own lemma; memory lists nothing, so it reads as the font and zero. -/
theorem resetSetsEveryElement : Obligations.ResetSetsEveryElement := fun s now hnow =>
  ⟨s.hostReset now, hostCall_reset hnow, fun a _ => s.hostReset_byteAt now a, fun _ ha _ => Memory.unlisted_eq_zero ha,
    s.hostReset_reg now, s.hostReset_stack now, s.hostReset_keys now, rfl, s.hostReset_pc now, rfl, blankDisplay_get, rfl, rfl,
    s.hostReset_wait now, rfl, s.hostReset_running now, s.hostReset_romLen now, rfl, s.hostReset_fault now⟩

/-- Settles O24: the state is the reset state with the fault raised, which writes the record alone. -/
theorem oversizedRomLatchesFault : Obligations.OversizedRomLatchesFault := fun s _ now hnow hlen =>
  ⟨_, _, hostCall_reset hnow, hostCall_load_tooLarge hnow hlen, rfl, s.hostReset_romLen now, changesOnly_raise _ _, step_faulted rfl⟩

end Sys2Proof.Machine
end

section
/-! SUPPORT. The encoder and the decoder are inverse to each other (30_encoding.md R82, R84): from instructions to words
format by format, from words to instructions family by family. -/

namespace Sys2Proof.Machine
open Laws.TableRow (encodeA_toNat encodeXK_toNat encodeXYN_toNat)

/-! ### From the instruction to its word and back -/

/-- Each format's word has the instruction's fields, and its fixed fields select the instruction. -/
theorem decodeWord_encode (i : Instr) : decodeWord (encode i) = some i := by
  cases i with
  | nop | cls | ret => rfl
  | jp addr => exact encodes_jp addr
  | call addr => exact encodes_call addr
  | ldI addr => exact encodes_ldI addr
  | jpV0 addr => exact encodes_jpV0 addr
  | seImm x kk | sneImm x kk | ldImm x kk | addImm x kk | rnd x kk => simp [encode, decodeWord]
  | seReg x y | sneReg x y | drw x y n => simp [encode, decodeWord]
  | ldReg x y | orReg x y | andReg x y | xorReg x y | addReg x y | subReg x y | shr x y | subnReg x y | shl x y =>
    simp [encode, decodeWord, decodeFamilyEight]
  | skp x | sknp x => simp [encode, decodeWord, decodeFamilyKey]
  | ldVxDt x | ldVxK x | ldDtVx x | ldStVx x | addI x | ldF x | ldB x | storeRegs x | loadRegs x =>
    simp [encode, decodeWord, decodeFamilyMisc]

/-- The two bytes of a word, put together again, are the word (20_memory.md R64). -/
theorem wordOfBytes_bytesOfWord (w : Word) : wordOfBytes (bytesOfWord w).1 (bytesOfWord w).2 = w := by
  apply BitVec.eq_of_toNat_eq
  rw [wordOfBytes_toNat, bytesOfWord, BitVec.extractLsb'_toNat, BitVec.extractLsb'_toNat, Nat.shiftRight_eq_div_pow]
  omega

/-! ### From the word to its instruction and back -/

section
variable (w : Word)

theorem encodeA_fields : encodeA (fieldMajor w) (fieldAddr w) = w := by
  apply BitVec.eq_of_toNat_eq
  rw [encodeA_toNat, fieldMajor_val, fieldAddr_toNat]
  omega

theorem encodeXK_fields : encodeXK (fieldMajor w) (fieldX w) (fieldKk w) = w := by
  apply BitVec.eq_of_toNat_eq
  rw [encodeXK_toNat, fieldMajor_val, fieldX_val, fieldKk_toNat]
  omega

theorem encodeXYN_fields : encodeXYN (fieldMajor w) (fieldX w) (fieldY w) (fieldN w) = w := by
  apply BitVec.eq_of_toNat_eq
  rw [encodeXYN_toNat, fieldMajor_val, fieldX_val, fieldY_val, fieldN_val]
  omega

end

section
variable {w : Word} {i : Instr}

theorem encode_of_decodeFamilyZero (h : decodeFamilyZero w = some i) : encode i = w := by
  unfold decodeFamilyZero at h
  split_ifs at h with hnop hcls hret <;> cases h
  exacts [hnop.symm, hcls.symm, hret.symm]

/-- The families with one instruction. -/
theorem encode_of_some {j : Instr} (h : some j = some i) (hw : encode j = w) : encode i = w :=
  Option.some.inj h ▸ hw

/-- Families 5 and 9: an instruction is given only for a low digit of 0. -/
theorem encode_of_registerSkip {j : Instr} (h : (if (fieldN w).val = 0 then some j else none) = some i)
    (hw : (fieldN w).val = 0 → encode j = w) : encode i = w := by
  split_ifs at h with hn
  cases h
  exact hw hn

theorem encode_of_decodeFamilyEight (hw : encodeXYN 0x8 (fieldX w) (fieldY w) (fieldN w) = w)
    (h : decodeFamilyEight w = some i) : encode i = w := by
  unfold decodeFamilyEight at h
  generalize fieldN w = n at h hw
  fin_cases n <;> cases h <;> exact hw

/-- Families E and F: the low byte is the selector, which the instruction fixes. -/
theorem encodeXK_selector {major : Fin 16} {kk : Byte} (hw : encodeXK major (fieldX w) (fieldKk w) = w)
    (hkk : (fieldKk w).toNat = kk.toNat) : encodeXK major (fieldX w) kk = w :=
  BitVec.eq_of_toNat_eq hkk ▸ hw

theorem encode_of_decodeFamilyKey (hw : encodeXK 0xE (fieldX w) (fieldKk w) = w) (h : decodeFamilyKey w = some i) :
    encode i = w := by
  unfold decodeFamilyKey at h
  split at h <;> cases h <;> exact encodeXK_selector hw (by assumption)

theorem encode_of_decodeFamilyMisc (hw : encodeXK 0xF (fieldX w) (fieldKk w) = w) (h : decodeFamilyMisc w = some i) :
    encode i = w := by
  unfold decodeFamilyMisc at h
  split at h <;> cases h <;> exact encodeXK_selector hw (by assumption)

/-- The fields a format reads make up the whole word, so the instruction's word is the one decoded. -/
theorem encode_of_decodeWord (h : decodeWord w = some i) : encode i = w := by
  have ha := encodeA_fields w
  have hxk := encodeXK_fields w
  have hxyn := encodeXYN_fields w
  have hdigit {major : Fin 16} (hw : encodeXYN major (fieldX w) (fieldY w) (fieldN w) = w) (hn : (fieldN w).val = 0) :
      encodeXYN major (fieldX w) (fieldY w) 0 = w := Fin.ext hn (b := 0) ▸ hw
  rw [decodeWord] at h
  generalize fieldMajor w = major at h ha hxk hxyn
  fin_cases major
  exacts [encode_of_decodeFamilyZero h, encode_of_some h ha, encode_of_some h ha, encode_of_some h hxk,
    encode_of_some h hxk, encode_of_registerSkip h (hdigit hxyn), encode_of_some h hxk, encode_of_some h hxk,
    encode_of_decodeFamilyEight hxyn h, encode_of_registerSkip h (hdigit hxyn), encode_of_some h ha, encode_of_some h ha,
    encode_of_some h hxk, encode_of_some h hxyn, encode_of_decodeFamilyKey hxk h, encode_of_decodeFamilyMisc hxk h]

end

/-! ### The obligations -/

/-- Settles O1: the words by `decodeWord_encode`, the bytes because they make up the word again. -/
theorem decodeEncodeRoundTrip : Obligations.DecodeEncodeRoundTrip := by
  refine ⟨decodeWord_encode, fun i rest => ?_⟩
  rw [encodeBytes, List.cons_append, List.cons_append, List.nil_append, decode, wordOfBytes_bytesOfWord, decodeWord_encode]

/-- Settles O2: the table is written from R87 and the decoder from R84; `decodeWord_isSome` compares them family by family. -/
theorem decoderAcceptsExactlyValidWords : Obligations.DecoderAcceptsExactlyValidWords := decodeWord_isSome

/-- Settles O3: each family keeps every bit of the word in a field of the instruction or in a fixed field. -/
theorem decodedWordReencodes : Obligations.DecodedWordReencodes := fun _ _ => encode_of_decodeWord

/-- Settles O4: the decoder evaluated on the fourteen words. -/
theorem sampleWordsDecode : Obligations.SampleWordsDecode := by
  unfold Obligations.SampleWordsDecode
  decide

end Sys2Proof.Machine
end

section
/-! SUPPORT. All that an instruction can do, said once: the shapes of the answer (`Wrote`), each with the instructions that have it
(60_exceptions.md R264 for the raised faults). What may change which element is read off the shapes. -/

namespace Sys2Proof.Machine

/-! ### Where the checks of an instruction fail -/

theorem keyPressed_error_inv {s : State} {x : Reg} {k : FaultKind} (h : keyPressed s x = .error k) :
    k = .keyIndexOutOfRange (s.reg x) ∧ 0xF < (s.reg x).toNat := by
  by_cases hx : (s.reg x).toNat < 16
  · rw [keyPressed_ok hx] at h
    cases h
  · rw [keyPressed_error (by omega)] at h
    cases h
    exact ⟨rfl, by omega⟩

theorem readBlock_error_inv {m : Memory} {a n : Nat} {k : FaultKind} (h : readBlock m a n = .error k) :
    ∃ b, k = .memoryOutOfBounds b ∧ 0xFFF < b := by
  by_cases hx : a + n ≤ 4096 ∨ n = 0
  · rw [readBlock_ok m hx] at h
    cases h
  · rw [readBlock_error m (by omega) (by omega)] at h
    cases h
    exact ⟨_, rfl, by omega⟩

theorem readBlock_length {m : Memory} {a n : Nat} {bytes : List Byte} (h : readBlock m a n = .ok bytes) : bytes.length = n := by
  by_cases hx : a + n ≤ 4096 ∨ n = 0
  · rw [readBlock_ok m hx] at h
    cases h
    simp
  · rw [readBlock_error m (by omega) (by omega)] at h
    cases h

theorem writeBlock_error_inv {m : Memory} {a : Nat} {bytes : List Byte} {k : FaultKind} (h : writeBlock m a bytes = .error k) :
    (∃ b, k = .memoryOutOfBounds b ∧ 0xFFF < b) ∨ ∃ b, k = .fontRegionStore b ∧ b ≤ 0x04F := by
  by_cases hn : bytes = []
  · subst hn
    cases h
  · by_cases hlo : a < 0x50
    · rw [writeBlock_font m hlo hn] at h
      cases h
      exact .inr ⟨a, rfl, by omega⟩
    · by_cases hhi : a + bytes.length ≤ 4096
      · rw [writeBlock_ok m (by omega) hhi] at h
        cases h
      · rw [writeBlock_above m (by omega) (by omega) hn] at h
        cases h
        exact .inl ⟨_, rfl, by omega⟩

/-! ### The shapes of an instruction's answer -/

/-- What an instruction can have written over `s`, by the elements it writes, with the instructions that write them. -/
inductive Wrote (i : Instr) (s : State) : State → Prop
  /-- Registers of `writesReg`, perhaps none (NOP), and pc. -/
  | regs (v : Vector Byte 16) (hv : ∀ r : Reg, v[r] ≠ s.reg r → writesReg i r) : Wrote i s (s.setRegs v).advance
  | random (x : Reg) (kk b : Byte) (hi : i = .rnd x kk) : Wrote i s ((s.setReg x b).setDraws (s.draws + 1)).advance
  | index (w : Word) (hi : (∃ addr, i = .ldI addr) ∨ ∃ x, i = .addI x ∨ i = .ldF x) : Wrote i s (s.setI w).advance
  | stored (a : Nat) (bytes : List Byte) (hi : ∃ x, i = .ldB x ∨ i = .storeRegs x) (hlo : 0x50 ≤ a)
    (hhi : a + bytes.length ≤ 4096) : Wrote i s (s.setMem (s.mem.putBytes a bytes)).advance
  | cleared (hi : i = .cls) : Wrote i s (s.setDisp blankDisplay).advance
  | drawn (x y : Reg) (n : Fin 16) (d : Display) (b : Byte) (hi : i = .drw x y n) : Wrote i s ((s.setDisp d).setReg vf b).advance
  | delay (x : Reg) (hi : i = .ldDtVx x) : Wrote i s (s.setDt (s.reg x)).advance
  | sound (x : Reg) (hi : i = .ldStVx x) : Wrote i s (s.setSt (s.reg x)).advance
  | waits (x : Reg) (hi : i = .ldVxK x) : Wrote i s (s.setWait (some x))
  | skipped (c : Bool) (hi : conditionalSkip i) : Wrote i s (s.skipIf c)
  | jumped (w : Word) (hw : w.toNat ≤ 0xFFF) (hi : controlTransfer i) : Wrote i s (s.setPc w)
  | called (addr : Addr12) (j : Fin 16) (n : Fin 17) (hi : i = .call addr) :
    Wrote i s ((s.setStack (s.stack.set j.val (s.pc + 2)) n).setPc (zext16 addr))
  | returned (j : Fin 16) (n : Fin 17) (hi : i = .ret) : Wrote i s ((s.setStack s.stack n).setPc s.stack[j])
  | raised (k : FaultKind) (hk : canRaise i k) (hinfo : k.InfoInRange) : Wrote i s (s.raise k)

section
variable {i : Instr} {s t : State} {x : Reg}

/-- One register of `writesReg` written. -/
theorem Wrote.reg (b : Byte) (h : writesReg i x) : Wrote i s (s.setReg x b).advance :=
  .regs (s.v.set x b) fun r hr => by
    by_cases hrx : r = x
    · exact hrx ▸ h
    · exact absurd (s.setReg_reg_ne hrx b) hr

/-- A result and its flag written. -/
theorem Wrote.withFlag (p : Byte × Byte) (h : ∀ r, r = x ∨ r = vf → writesReg i r) : Wrote i s (s.writeWithFlag x p).advance :=
  .regs ((s.v.set x p.1).set vf p.2) fun r hr => by
    by_contra hno
    exact hr (s.writeWithFlag_reg_ne p (fun e => hno (h r (.inl e))) fun e => hno (h r (.inr e)))

/-- An instruction that changes nothing but pc. -/
theorem Wrote.nothing : Wrote i s s.advance := .regs s.v fun _ hr => absurd rfl hr

theorem Wrote.ofStore {bytes : List Byte} (hi : ∃ x, i = .ldB x ∨ i = .storeRegs x) (hne : bytes ≠ [])
    (h : s.storeAtI bytes = .next t) : Wrote i s t := by
  rcases complete_bind_cases h with ⟨m, hm, rfl⟩ | ⟨k, hk, rfl⟩
  · rcases writeBlock_cases hm with ⟨hnil, -⟩ | ⟨hlo, hhi, rfl⟩
    · exact absurd hnil hne
    · exact .stored _ _ hi hlo hhi
  · rcases writeBlock_error_inv hk with ⟨b, rfl, hb⟩ | ⟨b, rfl, hb⟩
    · exact .raised _ (.inr (hi.imp fun _ hx => hx.imp_right .inl)) hb
    · exact .raised _ hi hb

theorem Wrote.ofKeySkip {f : Bool → Bool} (hi : ∃ x, i = .skp x ∨ i = .sknp x)
    (h : complete s (keyPressed s x >>= fun p => .ok (s.skipIf (f p))) = .next t) : Wrote i s t := by
  rcases complete_bind_cases h with ⟨p, -, rfl⟩ | ⟨k, hk, rfl⟩
  · exact .skipped _ (.inr (.inr hi))
  · obtain ⟨rfl, hinfo⟩ := keyPressed_error_inv hk
    exact .raised _ hi hinfo

/-- Every instruction's answer has one of the shapes. -/
theorem exec_wrote (h : exec i s = .next t) : Wrote i s t := by
  cases i with
  | nop => cases h; exact .nothing
  | cls => cases h; exact .cleared rfl
  | ldImm x _ | addImm x _ | ldReg x _ | orReg x _ | andReg x _ | xorReg x _ | ldVxDt x =>
    cases h
    exact .reg (x := x) _ rfl
  | addReg x _ | subReg x _ | shr x _ | subnReg x _ | shl x _ =>
    cases h
    exact .withFlag (x := x) _ fun _ hr => hr
  | rnd x kk => cases h; exact .random x kk _ rfl
  | ldI addr => cases h; exact .index _ (.inl ⟨addr, rfl⟩)
  | ldF x => cases h; exact .index _ (.inr ⟨x, .inr rfl⟩)
  | addI x =>
    by_cases hsum : s.i.toNat + (s.reg x).toNat ≤ 0xFFFF
    · rw [exec_addI_ok hsum] at h
      cases h
      exact .index _ (.inr ⟨x, .inl rfl⟩)
    · rw [exec_addI_overflow (not_le.1 hsum)] at h
      cases h
      exact .raised _ ⟨x, rfl⟩ (not_le.1 hsum)
  | ldB x => exact .ofStore ⟨x, .inl rfl⟩ (bcdDigits_ne_nil _) h
  | storeRegs x => exact .ofStore ⟨x, .inr rfl⟩ (regsUpTo_ne_nil s x) h
  | loadRegs x =>
    rcases complete_bind_cases h with ⟨bytes, hbytes, rfl⟩ | ⟨k, hk, rfl⟩
    · refine .regs _ fun r hr => ?_
      by_contra hx
      have hlen : bytes.length ≤ r.val := readBlock_length hbytes ▸ Nat.lt_of_not_le hx
      exact hr ((regsWith_getElem s bytes r.val r.isLt).trans (List.getD_eq_default _ _ hlen))
    · obtain ⟨b, rfl, hb⟩ := readBlock_error_inv hk
      exact .raised _ (.inr ⟨x, .inr (.inr rfl)⟩) hb
  | drw x y n =>
    rcases complete_bind_cases h with ⟨rows, -, rfl⟩ | ⟨k, hk, rfl⟩
    · exact .drawn x y n _ _ rfl
    · obtain ⟨b, rfl, hb⟩ := readBlock_error_inv hk
      exact .raised _ (.inl ⟨x, y, n, rfl⟩) hb
  | ldDtVx x => cases h; exact .delay x rfl
  | ldStVx x => cases h; exact .sound x rfl
  | ldVxK x => cases h; exact .waits x rfl
  | seImm x kk => cases h; exact .skipped _ (.inl ⟨x, kk, .inl rfl⟩)
  | sneImm x kk => cases h; exact .skipped _ (.inl ⟨x, kk, .inr rfl⟩)
  | seReg x y => cases h; exact .skipped _ (.inr (.inl ⟨x, y, .inl rfl⟩))
  | sneReg x y => cases h; exact .skipped _ (.inr (.inl ⟨x, y, .inr rfl⟩))
  | skp x => exact .ofKeySkip (f := id) ⟨x, .inl rfl⟩ h
  | sknp x => exact .ofKeySkip (f := not) ⟨x, .inr rfl⟩ h
  | jp addr =>
    cases h
    exact .jumped _ (by have := addr.isLt; rw [zext16_toNat]; omega) (.inr ⟨addr, .inr (.inl rfl)⟩)
  | jpV0 addr =>
    by_cases htarget : addr.toNat + (s.reg 0).toNat ≤ 0xFFF
    · rw [exec_jpV0_ok htarget] at h
      cases h
      exact .jumped _ (by rw [BitVec.toNat_ofNat]; omega) (.inr ⟨addr, .inr (.inr rfl)⟩)
    · rw [exec_jpV0_outside (not_le.1 htarget)] at h
      cases h
      exact .raised _ ⟨addr, rfl⟩ (not_le.1 htarget)
  | call addr =>
    by_cases hs : s.sp.val < 16
    · rw [exec_call_ok addr hs] at h
      cases h
      exact .called addr ⟨s.sp.val, hs⟩ _ rfl
    · rw [exec_call_full addr (by omega)] at h
      cases h
      exact .raised _ ⟨addr, rfl⟩ trivial
  | ret =>
    by_cases hs : 0 < s.sp.val
    · rw [exec_ret_ok hs] at h
      cases h
      exact .returned ⟨s.sp.val - 1, by omega⟩ _ rfl
    · rw [exec_ret_empty (by omega)] at h
      cases h
      exact .raised _ rfl trivial

/-! ### What changes, element by element -/

theorem exec_reg {r : Reg} (h : exec i s = .next t) (hne : t.reg r ≠ s.reg r) : writesReg i r := by
  cases exec_wrote h with
  | regs v hv => exact hv r hne
  | random x kk b hi =>
    subst hi
    by_contra hx
    exact hne (s.setReg_reg_ne hx b)
  | drawn x y n d b hi =>
    subst hi
    by_contra hvf
    exact hne ((s.setDisp d).setReg_reg_ne hvf b)
  | _ => exact absurd rfl hne

theorem exec_mem (h : exec i s = .next t) :
    t.mem = s.mem ∨ (∃ x, i = .ldB x ∨ i = .storeRegs x) ∧
      ∃ a bytes, 0x50 ≤ a ∧ a + bytes.length ≤ 4096 ∧ t.mem = s.mem.putBytes a bytes := by
  cases exec_wrote h with
  | stored a bytes hi hlo hhi => exact .inr ⟨hi, a, bytes, hlo, hhi, rfl⟩
  | _ => exact .inl rfl

theorem exec_disp (h : exec i s = .next t) (hne : t.disp ≠ s.disp) : i = .cls ∨ ∃ x y n, i = .drw x y n := by
  cases exec_wrote h with
  | cleared hi => exact .inl hi
  | drawn x y n d b hi => exact .inr ⟨x, y, n, hi⟩
  | _ => exact absurd rfl hne

theorem exec_stack (h : exec i s = .next t) (hne : t.stack ≠ s.stack ∨ t.sp ≠ s.sp) : i = .ret ∨ ∃ addr, i = .call addr := by
  cases exec_wrote h with
  | called addr j n hi => exact .inr ⟨addr, hi⟩
  | returned j n hi => exact .inl hi
  | _ => exact absurd rfl (hne.resolve_left (absurd rfl))

theorem exec_index (h : exec i s = .next t) (hne : t.i ≠ s.i) : (∃ addr, i = .ldI addr) ∨ ∃ x, i = .addI x ∨ i = .ldF x := by
  cases exec_wrote h with
  | index w hi => exact hi
  | _ => exact absurd rfl hne

/-- pc advances, skips or is set by a transfer, and stays where a wait begins or a fault is raised (40_cycle.md R109). -/
theorem exec_pc (h : exec i s = .next t) (hne : t.pc ≠ s.pc) :
    (∀ x, i ≠ .ldVxK x) ∧ t.fault = s.fault ∧
      (t.pc = s.pc + 2 ∨ t.pc = s.pc + 4 ∧ conditionalSkip i ∨ controlTransfer i) := by
  refine ⟨?_, ?_⟩
  · rintro x rfl
    cases h
    exact hne rfl
  · cases exec_wrote h with
    | waits | raised => exact absurd rfl hne
    | jumped w hw hi => exact ⟨rfl, .inr (.inr hi)⟩
    | called addr j n hi => exact ⟨rfl, .inr (.inr (.inr ⟨addr, .inl hi⟩))⟩
    | returned j n hi => exact ⟨rfl, .inr (.inr (.inl hi))⟩
    | skipped c hi =>
      cases c with
      | false => exact ⟨rfl, .inl rfl⟩
      | true => exact ⟨rfl, .inr (.inl ⟨rfl, hi⟩)⟩
    | _ => exact ⟨rfl, .inl rfl⟩

theorem exec_fault (h : exec i s = .next t) (hne : t.fault ≠ s.fault) : ∃ k, t.fault = some ⟨k, s.pc⟩ ∧ canRaise i k := by
  cases exec_wrote h with
  | raised k hk _ => exact ⟨k, rfl, hk⟩
  | _ => exact absurd rfl hne

/-- No instruction writes the keypad, the reported key, the run flag, the ROM length, the timestamp or the host time. -/
theorem exec_keeps (h : exec i s = .next t) :
    t.keys = s.keys ∧ t.rkey = s.rkey ∧ t.running = s.running ∧ t.romLen = s.romLen ∧ t.tLast = s.tLast ∧ t.now = s.now := by
  cases exec_wrote h <;> exact ⟨rfl, rfl, rfl, rfl, rfl, rfl⟩

theorem exec_draws (h : exec i s = .next t) (hne : t.draws ≠ s.draws) : ∃ x kk, i = .rnd x kk := by
  cases exec_wrote h with
  | random x kk b hi => exact ⟨x, kk, hi⟩
  | _ => exact absurd rfl hne

end

/-! ### The obligation -/

/-- Settles O16: each element by its own lemma. -/
theorem elementsHaveTheirWritersOnly : Obligations.ElementsHaveTheirWritersOnly := by
  intro i s t h
  obtain ⟨hkeys, hrkey, hrunning, hromLen, htLast, hnow⟩ := exec_keeps h
  refine ⟨fun r => exec_reg h, fun ⟨a, ha⟩ => ?_, exec_disp h, exec_stack h, exec_index h, (exec_dt h).resolve_left,
    (exec_st h).resolve_left, fun hne => ?_, exec_pc h, exec_fault h, hkeys, hrkey, hrunning, hromLen, htLast, hnow, exec_draws h⟩
  · exact ((exec_mem h).resolve_left fun hsame => ha (by rw [hsame])).1
  · exact ((exec_wait h).resolve_left hne).imp fun _ hx => hx.1

end Sys2Proof.Machine
end

section
/-! SUPPORT. The invariant of the block (`State.Inv`): it holds at reset, the timer sub-step, every instruction and every call of the host
keep it, so it holds in every state of a run. -/

namespace Sys2Proof.Machine

/-! ### Reset (10_state.md R44) -/

theorem State.resetAt_inv (now : Nat) : (State.resetAt now).Inv where
  memCanonical := Memory.wf_nil
  fontIntact _ _ := rfl
  pcBound := (by decide : (0x200 : Word).toNat ≤ 4097)
  stackBound j := by
    rw [show (State.resetAt now).stack[j] = 0 from Vector.getElem_replicate j.isLt]
    decide
  romLenBound := Nat.zero_le _
  clock := le_rfl
  waitState h := absurd rfl h
  faultRunning h := absurd rfl h
  faultRecord _ h := nomatch h

section
variable {s t : State}

/-! ### Updates that keep the invariant -/

theorem State.Inv.ticked (h : s.Inv) : s.ticked.Inv := by
  rcases timerSubStep_cases Config.timerPeriod s.now s with hsame | htick
  · rw [State.ticked, hsame]
    exact h
  · rw [State.ticked, htick]
    exact { h with clock := le_rfl }

theorem State.Inv.setNow (h : s.Inv) {now : Nat} (hnow : s.now ≤ now) : (s.setNow now).Inv :=
  { h with clock := h.clock.trans hnow }

theorem State.Inv.setPc (h : s.Inv) (hw : s.wait = none) {w : Word} (hpc : w.toNat ≤ 4097) : (s.setPc w).Inv :=
  { h with pcBound := hpc, waitState := absurd hw }

theorem State.Inv.raise (h : s.Inv) (hw : s.wait = none) (hr : s.running = true) (hpc : s.pc.toNat < 4094) {k : FaultKind}
    (hk : k.InfoInRange) : (s.raise k).Inv :=
  { h with
    waitState := absurd hw
    faultRunning := fun _ => hr
    faultRecord := fun f hf => by
      cases hf
      exact ⟨hk, hpc⟩ }

theorem State.Inv.setStack (h : s.Inv) {stack : Vector Word 16} (n : Fin 17) (hstack : ∀ j : Fin 16, stack[j].toNat ≤ 4095) :
    (s.setStack stack n).Inv :=
  { h with stackBound := hstack }

theorem State.Inv.setMem_putBytes (h : s.Inv) {a : Nat} {bytes : List Byte} (hlo : 0x50 ≤ a) (hhi : a + bytes.length ≤ 4096) :
    (s.setMem (s.mem.putBytes a bytes)).Inv :=
  { h with
    memCanonical := Memory.wf_putBytes h.memCanonical hhi
    fontIntact := fun b hb =>
      (Memory.byteAt_putBytes_outside s.mem fun hin => absurd (hlo.trans hin.1) (not_le.2 hb)).trans (h.fontIntact b hb) }

theorem State.Inv.advance (h : s.Inv) (hw : s.wait = none) (hpc : s.pc.toNat < 4094) : s.advance.Inv :=
  h.setPc hw (by bv_omega)

theorem State.Inv.skipIf (h : s.Inv) (hw : s.wait = none) (hpc : s.pc.toNat < 4094) (c : Bool) : (s.skipIf c).Inv :=
  h.setPc hw (by split <;> bv_omega)

/-! ### Instructions and steps -/

/-- An instruction that a step fetches keeps the invariant: `CALL` pushes the pc of a fetchable instruction plus 2, and every pc written is
that pc plus 2 or 4, a 12-bit address or a pushed address (10_state.md R24). -/
theorem State.Inv.exec {i : Instr} (h : s.Inv) (hs : s.Fetches) (hexec : exec i s = .next t) : t.Inv := by
  obtain ⟨hfault, hrun, hwait, hpc, -⟩ := hs
  cases exec_wrote hexec with
  | stored a bytes _ hlo hhi => exact (h.setMem_putBytes hlo hhi).advance hwait hpc
  | waits x => exact { h with waitState := fun _ => ⟨hpc, hrun, hfault⟩ }
  | skipped c => exact h.skipIf hwait hpc c
  | jumped w hw => exact h.setPc hwait (by omega)
  | called addr j n =>
    refine (h.setStack n fun q => ?_).setPc hwait (by have := addr.isLt; rw [zext16_toNat]; omega)
    have hret : (s.pc + 2).toNat ≤ 4095 := by bv_omega
    rw [Fin.getElem_fin, Vector.getElem_set]
    split
    · exact hret
    · exact h.stackBound q
  | returned j n => exact (h.setStack n h.stackBound).setPc hwait ((h.stackBound j).trans (by decide))
  | raised k _ hinfo => exact h.raise hwait hrun hpc hinfo
  | _ => exact State.Inv.advance { h with } hwait hpc

theorem State.Fetches.ticked (h : s.Fetches) : s.ticked.Fetches := by
  simpa only [State.Fetches, State.ticked_fault, State.ticked_running, State.ticked_wait, State.ticked_pc,
    State.ticked_romLen] using h

/-- A waiting step resolves the wait, at the pc of a fetchable instruction, or keeps it. -/
theorem State.Inv.waitStep {r : Reg} (h : s.Inv) (hw : s.wait = some r) : (waitStep r s).Inv := by
  cases hk : s.rkey with
  | none =>
    rw [waitStep_noKey r hk]
    exact h
  | some k =>
    obtain ⟨hpc, -, -⟩ := h.waitState (hw ▸ Option.some_ne_none r)
    have hcleared : (((s.setReg r (BitVec.ofNat 8 k.val)).setWait none).setRkey none).Inv :=
      { h with waitState := absurd rfl }
    rw [waitStep_key r hk]
    exact hcleared.advance rfl hpc

theorem State.Inv.step (h : s.Inv) (hstep : step s = .next t) : t.Inv := by
  obtain ⟨hfault, ⟨-, rfl⟩ | ⟨-, r, hw, rfl⟩ | ⟨-, hw, -, rfl⟩ | ⟨hs, hnone, rfl⟩ | ⟨hs, i, -, hexec⟩⟩ := step_cases hstep
  · exact h
  · exact h.ticked.waitStep (s.ticked_wait.trans hw)
  · exact { h.ticked with
      waitState := absurd (s.ticked_wait.trans hw)
      faultRunning := absurd (s.ticked_fault.trans hfault) }
  · obtain ⟨-, hrun, hwait, hpc, -⟩ := hs.ticked
    exact h.ticked.raise hwait hrun hpc (invalidOpcode_infoInRange hnone)
  · exact h.ticked.exec hs.ticked hexec

/-! ### Calls of the host (10_state.md R37) -/

theorem State.hostReset_inv (s : State) (now : Nat) : (s.hostReset now).Inv := { State.resetAt_inv now with }

theorem State.hostLoad_inv (s : State) (bytes : List Byte) (now : Nat) : (s.hostLoad bytes now).Inv := by
  have hreset := s.hostReset_inv now
  by_cases hlen : bytes.length ≤ 3584
  · rw [State.hostLoad_fits hlen]
    have hcopied := hreset.setMem_putBytes (a := 0x200) (bytes := bytes) (by decide) (by omega)
    exact { hcopied with romLenBound := hlen }
  · rw [State.hostLoad_tooLarge (not_le.1 hlen)]
    exact hreset.raise rfl rfl (by rw [State.hostReset_pc]; decide) (not_le.1 hlen)

theorem State.Inv.hostStep {now : Nat} {r : Reply} (h : s.Inv) (hnow : s.now ≤ now) (hcall : s.hostStep now = .next (t, r)) :
    t.Inv := by
  unfold State.hostStep at hcall
  split at hcall <;> cases hcall
  · exact (h.setNow hnow).step (by assumption)
  · exact h.setNow hnow

theorem State.Inv.hostCall {c : HostCall} {r : Reply} (h : s.Inv) (hcall : hostCall c s = .next (t, r)) : t.Inv := by
  cases c with
  | reset now =>
    rw [Machine.hostCall] at hcall
    split at hcall <;> cases hcall
    exact s.hostReset_inv now
  | load bytes now =>
    rw [Machine.hostCall] at hcall
    split at hcall <;> cases hcall
    exact s.hostLoad_inv bytes now
  | step now =>
    rw [Machine.hostCall] at hcall
    split at hcall
    · cases hcall
    · exact h.hostStep (by omega) hcall
  | setKeypad | reportKeyPressed =>
    cases hcall
    exact { h with }
  | display | isRunning | dump =>
    cases hcall
    exact h

theorem State.Inv.runCalls {calls : List HostCall} (h : s.Inv) (hrun : runCalls calls s = .next t) : t.Inv := by
  induction calls generalizing s with
  | nil =>
    cases hrun
    exact h
  | cons c rest ih =>
    rw [Machine.runCalls] at hrun
    split at hrun
    · exact ih (h.hostCall (by assumption)) hrun
    · cases hrun
    · cases hrun

end

/-! ### The obligations -/

/-- Settles O19: memory lists nothing, pc is 0x200, and no wait is pending and no fault latched. -/
theorem invariantHoldsAtReset : Obligations.InvariantHoldsAtReset := ⟨State.resetAt_inv 0, State.resetAt_inv⟩

/-- Settles O20: by the cases of a step. -/
theorem stepKeepsInvariant : Obligations.StepKeepsInvariant := fun _ _ => State.Inv.step

/-- Settles O21: by induction on the calls. -/
theorem hostRunsKeepInvariant : Obligations.HostRunsKeepInvariant := fun _ _ _ => State.Inv.runCalls

end Sys2Proof.Machine
end

section
/-! SUPPORT. More of the step (40_cycle.md): the timer sub-step is idempotent, every unfaulted step answers, a reported key waits for a key
wait, the font is never written, ST is never read, and what the host's `step(now)` gives back. -/

namespace Sys2Proof.Machine

section
variable {s t : State}

/-! ### The timer sub-step (R102) -/

section
variable {period now : Nat}

theorem timerSubStep_due (h : s.tLast + period ≤ now) :
    timerSubStep period now s = ((s.setDt (countDown s.dt)).setSt (countDown s.st)).setTLast now :=
  if_pos (by omega)

theorem timerSubStep_early (hpos : 0 < period) (h : now < s.tLast + period) : timerSubStep period now s = s :=
  if_neg (by omega)

end

theorem timerPeriod_pos : 0 < Config.timerPeriod := Nat.succ_pos _

/-- A second sub-step at the same time does nothing: the timestamp is already this time, or no period has passed. -/
theorem State.ticked_ticked (s : State) : s.ticked.ticked = s.ticked := by
  have hagain (u : State) (hu : u.now < u.tLast + Config.timerPeriod) : u.ticked = u := timerSubStep_early timerPeriod_pos hu
  by_cases hdue : s.tLast + Config.timerPeriod ≤ s.now
  · refine hagain _ ?_
    rw [State.ticked, timerSubStep_due hdue]
    exact Nat.lt_add_of_pos_right timerPeriod_pos
  · have hsame := hagain s (not_le.1 hdue)
    rw [hsame, hsame]

/-! ### Every step without a latched fault answers a next state (R101) -/

theorem step_answers (hfault : s.fault = none) : ∃ t, step s = .next t := by
  cases hrun : s.running with
  | false => exact ⟨s, step_halted hfault hrun⟩
  | true =>
    cases hwait : s.wait with
    | some r => exact ⟨_, step_waiting hfault hrun hwait⟩
    | none =>
      by_cases hend : 4094 ≤ s.pc.toNat ∨ 0x200 + s.romLen ≤ s.pc.toNat
      · exact ⟨_, step_ending hfault hrun hwait hend⟩
      · obtain ⟨t, ht, -⟩ := step_fetching_running (s := s) ⟨hfault, hrun, hwait, by omega, by omega⟩
        exact ⟨t, ht⟩

/-! ### The reported key (10_state.md R31, 44_timer_keypad.md R223, 70_reset_and_hazards.md R299) -/

/-- Only the end of a wait changes the reported key. -/
theorem step_rkey (h : step s = .next t) (hne : t.rkey ≠ s.rkey) : s.wait ≠ none ∧ t.wait = none ∧ t.rkey = none := by
  obtain ⟨-, ⟨-, rfl⟩ | ⟨-, r, hw, rfl⟩ | ⟨-, -, -, rfl⟩ | ⟨-, -, rfl⟩ | ⟨-, i, -, hexec⟩⟩ := step_cases h
  · exact absurd rfl hne
  · cases hk : s.ticked.rkey with
    | none => exact absurd (by rw [waitStep_noKey r hk, State.ticked_rkey]) hne
    | some k =>
      rw [waitStep_key r hk]
      exact ⟨hw ▸ Option.some_ne_none r, rfl, rfl⟩
  · exact absurd s.ticked_rkey hne
  · exact absurd s.ticked_rkey hne
  · obtain ⟨-, hrkey, -⟩ := exec_keeps hexec
    exact absurd (hrkey.trans s.ticked_rkey) hne

/-- A step that runs `LD Vx, K` begins the wait, and that is all after the timer sub-step. -/
theorem step_ldVxK {x : Reg} (hs : s.Fetches) (hi : decodeWord s.wordAtPc = some (.ldVxK x)) :
    step s = .next (s.ticked.setWait (some x)) :=
  (step_fetching hs).trans (executeWord_valid _ hi)

/-! ### The font (20_memory.md R61, R63) -/

theorem waitStep_mem (r : Reg) (s : State) : (waitStep r s).mem = s.mem := by unfold waitStep; split <;> rfl

/-- A step leaves memory alone, or writes a block above the font. -/
theorem step_mem (h : step s = .next t) : t.mem = s.mem ∨ ∃ a bytes, 0x50 ≤ a ∧ t.mem = s.mem.putBytes a bytes := by
  obtain ⟨-, ⟨-, rfl⟩ | ⟨-, r, -, rfl⟩ | ⟨-, -, -, rfl⟩ | ⟨-, -, rfl⟩ | ⟨-, i, -, hexec⟩⟩ := step_cases h
  · exact .inl rfl
  · exact .inl ((waitStep_mem r _).trans s.ticked_mem)
  · exact .inl s.ticked_mem
  · exact .inl s.ticked_mem
  · rcases exec_mem hexec with hsame | ⟨-, a, bytes, hlo, -, hput⟩
    · exact .inl (hsame.trans s.ticked_mem)
    · exact .inr ⟨a, bytes, hlo, by rw [hput, State.ticked_mem]⟩

/-! ### The sound timer (10_state.md R28) -/

theorem changesOnly_setSt (s : State) (b : Byte) : ChangesOnly [.st] s (s.setSt b) := by
  intro part hpart
  cases part with
  | st => simp at hpart
  | _ => rfl

/-- An instruction of one check: with another value of ST in the state it starts from and in the state it writes, it answers the same. -/
theorem complete_bind_setSt {α : Type} {e : Except FaultKind α} {f : α → State} (b : Byte)
    (h : complete s (e >>= fun a => .ok (f a)) = .next t) :
    complete (s.setSt b) (e >>= fun a => .ok ((f a).setSt b)) = .next (t.setSt b) := by
  rcases complete_bind_cases h with ⟨a, rfl, rfl⟩ | ⟨k, rfl, rfl⟩ <;> rfl

/-- With another value of ST an instruction answers the same state, but for ST. -/
theorem exec_setSt {i : Instr} (b : Byte) (h : exec i s = .next t) : ∃ c, exec i (s.setSt b) = .next (t.setSt c) := by
  cases i with
  | ldStVx x =>
    cases h
    exact ⟨s.reg x, rfl⟩
  | call addr =>
    by_cases hs : s.sp.val < 16
    · rw [exec_call_ok addr hs] at h
      cases h
      exact ⟨b, exec_call_ok (s := s.setSt b) addr hs⟩
    · have hfull : s.sp.val = 16 := by omega
      rw [exec_call_full addr hfull] at h
      cases h
      exact ⟨b, exec_call_full (s := s.setSt b) addr hfull⟩
  | ret =>
    by_cases hs : 0 < s.sp.val
    · rw [exec_ret_ok hs] at h
      cases h
      exact ⟨b, exec_ret_ok (s := s.setSt b) hs⟩
    · have hempty : s.sp.val = 0 := by omega
      rw [exec_ret_empty hempty] at h
      cases h
      exact ⟨b, exec_ret_empty (s := s.setSt b) hempty⟩
  | skp | sknp | jpV0 | drw | addI | ldB | storeRegs | loadRegs => exact ⟨b, complete_bind_setSt b h⟩
  | _ =>
    cases h
    exact ⟨b, rfl⟩

theorem State.ticked_setSt (s : State) (b : Byte) : ∃ c, (s.setSt b).ticked = s.ticked.setSt c := by
  by_cases hdue : s.tLast + Config.timerPeriod ≤ s.now
  · refine ⟨countDown b, ?_⟩
    rw [State.ticked, State.ticked, timerSubStep_due hdue, timerSubStep_due (s := s.setSt b) (now := (s.setSt b).now) hdue]
    rfl
  · have hearly := not_le.1 hdue
    refine ⟨b, ?_⟩
    rw [State.ticked, State.ticked, timerSubStep_early timerPeriod_pos hearly,
      timerSubStep_early (s := s.setSt b) (now := (s.setSt b).now) timerPeriod_pos hearly]

theorem waitStep_setSt (r : Reg) (s : State) (b : Byte) : waitStep r (s.setSt b) = (waitStep r s).setSt b := by
  cases hk : s.rkey with
  | none => rw [waitStep_noKey r hk, waitStep_noKey (s := s.setSt b) r hk]
  | some k =>
    rw [waitStep_key r hk, waitStep_key (s := s.setSt b) r hk]
    rfl

/-- With another value of ST a step takes the same branch and answers the same state, but for ST. -/
theorem step_setSt (b : Byte) (h : step s = .next t) : ∃ c, step (s.setSt b) = .next (t.setSt c) := by
  obtain ⟨c, hc⟩ := s.ticked_setSt b
  obtain ⟨hfault, ⟨hrun, rfl⟩ | ⟨hrun, r, hw, rfl⟩ | ⟨hrun, hw, hend, rfl⟩ | ⟨hs, hnone, rfl⟩ | ⟨hs, i, hi, hexec⟩⟩ :=
    step_cases h
  · exact ⟨b, step_halted (s := t.setSt b) hfault hrun⟩
  · exact ⟨c, by rw [step_waiting (s := s.setSt b) hfault hrun hw, hc, waitStep_setSt]⟩
  · exact ⟨c, by rw [step_ending (s := s.setSt b) hfault hrun hw hend, hc]; rfl⟩
  · exact ⟨c, by rw [step_fetching (s := s.setSt b) hs, hc]; exact executeWord_invalid _ hnone⟩
  · obtain ⟨c', hc'⟩ := exec_setSt c hexec
    exact ⟨c', by rw [step_fetching (s := s.setSt b) hs, hc]; exact (executeWord_valid _ hi).trans hc'⟩

/-! ### What the host's `step(now)` gives back (60_exceptions.md R262) -/

theorem changesOnly_setNow (s : State) (now : Nat) : ChangesOnly [.now] s (s.setNow now) := by
  intro part hpart
  cases part with
  | now => simp at hpart
  | _ => rfl

section
variable {now : Nat}

theorem hostCall_step (hnow : s.now ≤ now) : hostCall (.step now) s = s.hostStep now := if_neg (not_lt.2 hnow)

theorem State.hostStep_next (h : step (s.setNow now) = .next t) : s.hostStep now = .next (t, t.reply) := by
  rw [State.hostStep, h]

theorem State.hostStep_faulted {f : FaultRecord} (h : s.fault = some f) : s.hostStep now = .next (s.setNow now, .fault f) := by
  rw [State.hostStep, step_faulted (s := s.setNow now) h]

end

end

/-! ### The obligations -/

/-- Settles O8: the sub-step's two branches, and that a live step begins with it while a second one does nothing. -/
theorem timersTickOncePerPeriod : Obligations.TimersTickOncePerPeriod := by
  refine ⟨fun period now s hpos => ⟨fun hdue => ?_, timerSubStep_early hpos⟩, fun s ⟨hrun, hfault⟩ => ?_⟩
  · have hframe := changesOnly_timerSubStep period now s
    rw [timerSubStep_due hdue] at hframe ⊢
    exact ⟨countDown_toNat s.dt, countDown_toNat s.st, rfl, hframe⟩
  · rw [step_live hfault hrun, step_live (s.ticked_fault.trans hfault) (s.ticked_running.trans hrun), State.ticked_ticked]

/-- Settles O14: a step answers in each of its branches. -/
theorem stepAnswersUnlessFaulted : Obligations.StepAnswersUnlessFaulted := fun _ => ⟨step_answers, fun _ => step_faulted⟩

/-- Settles O6: below 4094 both bytes are in memory. -/
theorem fetchReadsBigEndianAndNeverFaults : Obligations.FetchReadsBigEndianAndNeverFaults := fun s hpc =>
  ⟨s.wordAtPc, fetchWord_ok (by omega), s.wordAtPc_toNat⟩

/-- Settles O12: `LD Vx, K` leaves the key reported, and the next step finds it with the wait pending. -/
theorem staleKeyResolvesNextWait : Obligations.StaleKeyResolvesNextWait := by
  refine ⟨fun s t => step_rkey, fun s x k hs hi hk => ?_⟩
  have hlive : (s.ticked.setWait (some x)).Live := ⟨s.ticked_running.trans hs.running_true, s.ticked_fault.trans hs.1⟩
  have hkey : (s.ticked.setWait (some x)).rkey = some k := s.ticked_rkey.trans hk
  refine ⟨_, _, step_ldVxK hs hi, rfl, hkey, s.ticked_pc, step_waiting_key hlive rfl hkey, State.resolved_reg _ x k, rfl, rfl, ?_⟩
  rw [State.resolved, State.setPc_pc, State.ticked_pc, State.setWait_pc, State.ticked_pc]

/-- Settles O18: what a step writes to memory lies above the font. -/
theorem stepsNeverChangeTheFont : Obligations.StepsNeverChangeTheFont := by
  intro s t h a ha
  rcases step_mem h with hsame | ⟨b, bytes, hlo, hput⟩
  · rw [hsame]
  · rw [hput, Memory.byteAt_putBytes_outside _ fun hin => absurd (hlo.trans hin.1) (not_le.2 ha)]

/-- Settles O17: the two steps answer the same state but for ST. -/
theorem soundTimerIsNeverRead : Obligations.SoundTimerIsNeverRead := by
  intro s t b h
  obtain ⟨c, hc⟩ := step_setSt b h
  exact ⟨_, hc, changesOnly_setSt t c⟩

/-- Settles O28: the reply is that of the state the step leaves, and a faulted step's is the latched record. -/
theorem hostStepReportsFaults : Obligations.HostStepReportsFaults := by
  intro s now hnow
  rw [hostCall_step hnow]
  refine ⟨fun hfault => ?_, fun f hf => ⟨_, State.hostStep_faulted hf, changesOnly_setNow s now⟩⟩
  obtain ⟨t, ht⟩ := step_answers (s := s.setNow now) hfault
  refine ⟨t, ht, fun hok => ?_, fun f hf => ?_⟩
  · rw [State.hostStep_next ht, State.reply_ok hok]
  · rw [State.hostStep_next ht, State.reply_fault hf]

end Sys2Proof.Machine
end

section
/-! SUPPORT. Instructions one after the other: a call and its return (42_control_flow.md), a sprite drawn twice (43_display.md
R204), registers stored and then loaded or fetched (45_memory_index.md R244, R245, 20_memory.md R64, R70);
and RND (41_arith_logic.md R146). -/

namespace Sys2Proof.Machine

/-! ### RND (R146) -/

theorem encodes_rnd (x : Reg) (kk : Byte) : Encodes (0xC000 + x.val * 0x100 + kk.toNat) (.rnd x kk) :=
  decodeWord_encode (.rnd x kk)

theorem changesOnly_setReg_setDraws_advance (s : State) (x : Reg) (b : Byte) (n : Nat) :
    ChangesOnly [.reg x, .draws, .pc] s ((s.setReg x b).setDraws n).advance := by
  intro part hpart
  cases part with
  | reg q =>
    have hq : q ≠ x := fun e => hpart (List.mem_cons.2 (.inl (congrArg Part.reg e)))
    exact State.setReg_reg_ne s hq b
  | draws | pc => simp at hpart
  | _ => rfl

/-! ### A call and its return (R171, R172) -/

section
variable {s : State}

/-- The return pops what the call pushed, and the slot keeps it. -/
theorem exec_ret_of_call (addr : Addr12) (h : s.sp.val < 16) :
    exec .ret ((s.setStack (s.stack.set s.sp.val (s.pc + 2)) ⟨s.sp.val + 1, by omega⟩).setPc (zext16 addr)) =
      .next ((s.setStack (s.stack.set s.sp.val (s.pc + 2)) s.sp).setPc (s.pc + 2)) := by
  have hpopped : (s.stack.set s.sp.val (s.pc + 2))[s.sp.val] = s.pc + 2 := Vector.getElem_set_self h
  exact (exec_ret_ok (Nat.succ_pos _)).trans (congrArg (fun w => Host.Outcome.next ((s.setStack _ s.sp).setPc w)) hpopped)

/-- A slot and pc written: the depth is as before. -/
theorem changesOnly_setStack_sp (s : State) (j : Fin 16) (w target : Word) :
    ChangesOnly [.slot j, .pc] s ((s.setStack (s.stack.set j.val w) s.sp).setPc target) := by
  intro part hpart
  by_cases hdepth : part = .depth
  · subst hdepth
    rfl
  · refine changesOnly_setStack_set_setPc s j w s.sp target part fun hmem => hpart ?_
    simpa [hdepth] using hmem

end

/-! ### Drawing twice (R204) -/

section
variable {p : Fin 64 → Fin 32 → Prop} {a b d : Display × Bool}

/-- Toggling the same cells again restores them. -/
theorem Toggles.restores {flag : Bool} (h1 : Toggles p a b) (h2 : Toggles p (b.1, flag) d) : d.1 = a.1 := by
  refine Vector.ext fun c hc => Vector.ext fun r hr => ?_
  have hcell : d.1[(⟨c, hc⟩ : Fin 64)][(⟨r, hr⟩ : Fin 32)] = a.1[(⟨c, hc⟩ : Fin 64)][(⟨r, hr⟩ : Fin 32)] := by
    by_cases hp : p ⟨c, hc⟩ ⟨r, hr⟩
    · rw [h2.covered _ _ hp, h1.covered _ _ hp, Bool.not_not]
    · rw [h2.uncovered _ _ hp, h1.uncovered _ _ hp]
  exact hcell

/-- The covered cells lit after the toggling are those it lit. -/
theorem Toggles.lit_iff (h : Toggles p a b) (c : Fin 64) (r : Fin 32) :
    p c r ∧ b.1[c][r] = true ↔ a.1[c][r] = false ∧ b.1[c][r] = true := by
  refine and_congr_left fun hlit => ⟨fun hp => ?_, fun hdark => ?_⟩
  · rw [h.covered c r hp] at hlit
    exact Bool.not_eq_true' _ ▸ hlit
  · by_contra hp
    rw [h.uncovered c r hp, hdark] at hlit
    cases hlit

end

section
variable {s t : State} {x y : Reg} {n : Nat}

theorem spriteCovers_congr (hx : t.reg x = s.reg x) (hy : t.reg y = s.reg y) (hi : t.i = s.i) (hmem : t.mem = s.mem) :
    spriteCovers t x y n = spriteCovers s x y n := by
  funext c r
  simp only [spriteCovers, hx, hy, hi, hmem]

/-- The flag of a draw of the same sprite again: it is raised exactly if the first draw lit a cell. -/
theorem State.drawn_again_collision_iff (h : spriteCovers t x y n = spriteCovers s x y n) (hdisp : t.disp = (s.drawn x y n).1) :
    (t.drawn x y n).2 = true ↔ ∃ (c : Fin 64) (r : Fin 32), s.disp[c][r] = false ∧ t.disp[c][r] = true := by
  rw [State.drawn_collision_iff, h, hdisp]
  exact exists_congr fun c => exists_congr fun r => (s.drawn_toggles x y n).lit_iff c r

theorem State.drawn_again_disp (h : spriteCovers t x y n = spriteCovers s x y n) (hdisp : t.disp = (s.drawn x y n).1) :
    (t.drawn x y n).1 = s.disp := by
  have hagain := t.drawn_toggles x y n
  rw [h, hdisp] at hagain
  exact (s.drawn_toggles x y n).restores hagain

end

/-! ### The obligations -/

/-- Settles O44: the register written with the masked byte, the draw counted and pc advanced. -/
theorem randomByteIsMasked : Obligations.RandomByteIsMasked := by
  intro x kk s
  have hreg : (rndWith (Config.randomByte s.draws) x kk s).reg x = Config.randomByte s.draws &&& kk := s.setReg_reg_self x _
  refine ⟨encodes_rnd x kk, _, rfl, hreg, ?_, rfl, rfl, changesOnly_setReg_setDraws_advance s x _ _⟩
  rintro rfl
  exact hreg.trans BitVec.and_zero

/-- Settles O33: the return restores the depth and takes the pushed address. -/
theorem callThenReturnComesBack : Obligations.CallThenReturnComesBack := fun addr s h =>
  ⟨_, _, exec_call_ok addr h, exec_ret_of_call addr h, rfl, rfl, changesOnly_setStack_sp s ⟨s.sp.val, h⟩ _ _⟩

/-- Settles O47: at the same origin the sprite covers the same cells, so the second draw toggles them back. -/
theorem drawTwiceRestoresDisplay : Obligations.DrawTwiceRestoresDisplay := by
  intro x y n s hin
  refine ⟨_, exec_drw_ok s x y hin, fun hx => State.setReg_reg_ne _ hx _, fun hy => State.setReg_reg_ne _ hy _, fun hx hy => ?_⟩
  set t := ((s.setDisp (s.drawn x y n.val).1).setReg vf (flagByte (s.drawn x y n.val).2)).advance
  have hcovers : spriteCovers t x y n.val = spriteCovers s x y n.val := spriteCovers_congr hx hy rfl rfl
  have hflag := State.drawn_again_collision_iff hcovers rfl
  have hvf (b : Byte) : (((t.setDisp (t.drawn x y n.val).1).setReg vf b).advance).reg vf = b := State.setReg_reg_self _ vf b
  refine ⟨_, exec_drw_ok t x y hin, State.drawn_again_disp hcovers rfl, fun hlit => ?_, fun hnone => ?_⟩
  · rw [hvf, hflag.2 hlit]
    rfl
  · have hno : (t.drawn x y n.val).2 = false := by
      refine Bool.eq_false_iff.2 fun hcollision => ?_
      obtain ⟨c, r, hdark, hlit⟩ := hflag.1 hcollision
      exact Bool.false_ne_true (hdark.symm.trans (hnone c r hlit))
    rw [hvf, hno]
    rfl

/-- Settles O55: the store leaves V0 .. Vx at I and I as it was, which is what the load reads. -/
theorem storeThenLoadRestoresRegisters : Obligations.StoreThenLoadRestoresRegisters := by
  intro x s v hm hok
  obtain ⟨-, hstore, -⟩ := storeBlockWritesRegisters x s
  obtain ⟨t, ht, hbytes, -, hframe⟩ := hstore hm hok
  have hi : t.i = s.i := hframe .index id
  obtain ⟨-, hload, -⟩ := loadBlockReadsRegisters x (t.setRegs v)
  obtain ⟨u, hu, hregs, -, hrest⟩ := hload fun k hk => by
    rw [State.setRegs_i, hi]
    exact (not_storeFails_iff.1 (hok k hk)).2
  refine ⟨t, u, ht, hu, fun r hr => ?_, fun r hr => hrest (.reg r) (not_le.2 hr)⟩
  rw [hregs r hr, State.setRegs_mem, State.setRegs_i, hi, hbytes r hr]

/-- Settles O56: the fetch reads the two stored bytes, both in memory. -/
theorem fetchSeesStoredRegisters : Obligations.FetchSeesStoredRegisters := by
  intro x a b s hm hok hb hab
  obtain ⟨-, hstore, -⟩ := storeBlockWritesRegisters x s
  obtain ⟨t, ht, hbytes, -, -⟩ := hstore hm hok
  have ha : a ≤ x := (Fin.lt_def.2 (by omega : a.val < b.val)).le.trans hb
  obtain ⟨-, hlast⟩ := not_storeFails_iff.1 (hok b hb)
  have hpc : (t.setPc (s.i + BitVec.ofNat 16 a.val)).pc.toNat = s.i.toNat + a.val := by
    rw [State.setPc_pc, BitVec.toNat_add, BitVec.toNat_ofNat]
    omega
  refine ⟨t, _, ht, fetchWord_ok (by omega), ?_⟩
  rw [State.wordAtPc_toNat, hpc, State.setPc_mem, Nat.add_assoc, ← hab, hbytes a ha, hbytes b hb]

end Sys2Proof.Machine
end
